-- ==== Sys2Proof/Config.lean ====
section
/-! DEFINITION. What an implementation of the Intcode core fixes (spec/00_scope.md rules R4 to R6): the word
width `W`, a parameter of at least 64, and this hardware's value of it, 64.  The spec has no free values: no rule
contains a free choice or a draw (R7), so nothing here is opaque. -/

namespace Sys2Proof.Config

/-- The word width of this hardware (R4).  The types, the operations and the meanings take the width as the
argument `W`; the names that fix no width, such as `State` and `Word` without an argument, are those of this
value (log entry 1). -/
abbrev W : Nat := 64

/-- The largest address `AMAX = INT_MAX = 2^(W-1) - 1` (R5). -/
def AMAX (W : Nat := Config.W) : Nat := 2 ^ (W - 1) - 1

/-- The largest word `INT_MAX` (R5). -/
def INT_MAX (W : Nat := Config.W) : Int := (AMAX W : Int)

/-- The smallest word `INT_MIN = -2^(W-1)` (R5). -/
def INT_MIN (W : Nat := Config.W) : Int := -((2 ^ (W - 1) : Nat) : Int)

end Sys2Proof.Config
end

