-- ==== Sys2Proof/Word.lean ====
section
/-! DEFINITION. Words and addresses (spec/00_scope.md R4, R5, R9; spec/20_memory.md R50, R51), at any width
`W`; at this hardware's width where none is given. -/

namespace Sys2Proof

/-- A word: a signed two's-complement integer of `W` bits (R4, R51).  Its value is `BitVec.toInt`;
no unsigned reading of a word is ever taken (R9).  Being `W` bits wide it is in `Int_W` by its type. -/
abbrev Word (W : Nat := Config.W) := BitVec W

/-- An address: one of the integers `0 .. AMAX` (R5, R50). -/
abbrev Addr (W : Nat := Config.W) := Fin (Config.AMAX W + 1)

/-- `v` is in `Int_W` (R5). -/
def InIntW (v : Int) (W : Nat := Config.W) : Prop := Config.INT_MIN W ≤ v ∧ v ≤ Config.INT_MAX W
  deriving Decidable

/-- The word whose value is `v`; used only where `v` is known to be in `Int_W`. -/
abbrev Word.ofInt {W : Nat} (v : Int) : Word W := BitVec.ofInt W v

/-- A word's value is in `Int_W` (R4, R51). -/
theorem Word.inIntW {W : Nat} (w : Word W) : InIntW w.toInt W := by
  have h1 := BitVec.le_toInt w
  have h2 := BitVec.toInt_lt (x := w)
  simp only [InIntW, Config.INT_MIN, Config.INT_MAX, Config.AMAX]
  cases W with
  | zero => simp at *; omega
  | succ n =>
    have hp : (2 : Int) ^ (n + 1) = 2 * 2 ^ n := by rw [Int.pow_succ]; omega
    have hn : 0 < 2 ^ n := Nat.two_pow_pos n
    push_cast [Nat.add_sub_cancel, Nat.cast_sub hn] at *
    omega

/-- A word that is not negative is an address (R5). -/
theorem Word.toNat_lt {W : Nat} (w : Word W) : w.toInt.toNat < Config.AMAX W + 1 := by
  have h := (Word.inIntW w).2
  simp only [Config.INT_MAX] at h
  omega

end Sys2Proof
end

