-- ==== Sys2Proof/Machine/Flags.lean ====
section
/-! DEFINITION. Truth values.  The machine has no flags or condition codes (spec/10_state.md R27): a
comparison produces a word and a conditional jump tests a word (spec/41_alu.md R137). -/

namespace Sys2Proof.Machine

/-- The value a comparison produces: 1 for true, 0 for false (R137). -/
def truthValue (b : Bool) : Int := if b then 1 else 0

/-- How a conditional jump reads a word: only 0 is false (R137). -/
def wordIsTrue {W : Nat} (w : Word W) : Bool := decide (w.toInt ≠ 0)

end Sys2Proof.Machine
end

