-- ==== Sys2Proof/Machine/State.lean ====
section
/-! DEFINITION. The machine's state (spec/10_state.md R20), its reset value (R36), and the reasons for
which `step` gives no next state. -/

namespace Sys2Proof.Machine

/-- The run state (R28). -/
inductive Status where
  /-- the next step may be taken -/
  | running
  /-- HALT has executed; terminal -/
  | halted
  /-- a fault was raised; terminal -/
  | faulted
  deriving DecidableEq, Repr

/-- The register encoding of the run state (R28). -/
def Status.code : Status → Nat
  | .running => 0
  | .halted => 1
  | .faulted => 2

/-- The six faults the spec lists, each with its payload (spec/60_exceptions.md R180). -/
inductive Cause.Of (W : Nat) where
  /-- code 1: dispatch of a word with no legal opcode (R181) -/
  | unknownOpcode (opcode : Int) (pc : Addr W)
  /-- code 2: a used parameter's mode digit is 3 to 9 (R182) -/
  | unknownParameterMode (digit : Nat)
  /-- code 3: an Immediate-mode write target (R183) -/
  | unsupportedWriteMode
  /-- code 4: IN with no input value left (R184) -/
  | inputExhausted
  /-- code 5: a resolved address or a taken jump's target below zero (R185) -/
  | negativeAddress
  /-- code 6: a computed integer outside `Int_W` (R186) -/
  | overflow
  deriving DecidableEq, Repr

/-- A fault of this hardware. -/
abbrev Cause := Cause.Of Config.W

/-- The fault record as the host's port shows it (R29). -/
structure FaultRecord where
  cause : Nat
  info1 : Int
  info2 : Int
  deriving DecidableEq, Repr

/-- Memory: the words that are not 0, by rising address.  An unlisted address reads as 0
(spec/20_memory.md R53, R71).  The unit is the word, the spec's only addressable unit (R50, R59; log
entry 2). -/
abbrev Memory (W : Nat := Config.W) := List (Nat × Word W)

/-- The canonical form: addresses in `0 .. AMAX`, strictly rising, and no word equal to 0. -/
def Memory.wf {W : Nat} : Memory W → Bool
  | [] => true
  | (a, v) :: rest =>
    decide (a ≤ Config.AMAX W) && decide (v ≠ 0) && rest.all (fun e => decide (a < e.1)) && Memory.wf rest

/-- The whole architectural state (R20) at a word width (spec/00_scope.md R4); nothing else persists from one
step to the next (R34, R35). -/
structure State.Of (W : Nat) where
  /-- `mem`: program and data together (R32, R50) -/
  mem : Memory W
  /-- `extent`: the current length of memory, `0 .. AMAX+1` (R32) -/
  extent : Nat
  /-- `pc`: the address of the current instruction word (R22) -/
  pc : Addr W
  /-- `rb`: the relative base (R26) -/
  rb : Word W
  /-- `status`: the run state (R28) -/
  status : Status
  /-- `fault`: none is the record (0,0,0); a cause stands for its code and payload (R29, log entry 6) -/
  fault : Option (Cause.Of W)
  /-- `INPUT`: the whole input sequence, fixed at reset (R30) -/
  input : List (Word W)
  /-- `in_cursor`: how many input values have been consumed (R30) -/
  inCursor : Nat
  /-- `out`: every value produced by OUT, in order (R31) -/
  out : List (Word W)
  /-- `retval`: the return value, meaningful only when halted (R33) -/
  retval : Word W
  deriving DecidableEq, Repr

/-- The state of this hardware, whose words have 64 bits (spec/00_scope.md R4; log entry 1). -/
abbrev State := State.Of Config.W

/-- Why `step` has no successor: the core has stopped for good (spec/40_step_and_operands.md R123).
The spec's own six faults are `Cause`, and raising one is a step (R188; log entry 4). -/
inductive Fault where
  /-- raised by `step` alone, in a state whose status is `halted`; safe: the spec gives it no step -/
  | haltedTakesNoStep
  /-- raised by `step` alone, in a state whose status is `faulted`; safe: the spec gives it no step -/
  | faultedTakesNoStep
  deriving DecidableEq, Repr

/-- What the model gives no meaning. -/
inductive Refusal where
  /-- raised by an arm of `exec` whose instruction has no meaning yet; no arm does; safe -/
  | notModelled (mnemonic : String)
  /-- raised by `launch` when the host offers a value outside `Int_W` (R211); safe: the spec asks for
  the refusal -/
  | launchValueOutsideIntW (value : Int)
  /-- raised by `launch` when the image has more words than there are addresses (R50, R211; log entry
  7); safe -/
  | launchImageTooLong (words : Nat)
  deriving DecidableEq, Repr

/-- The state right after reset with an empty image and an empty input, at any width (R36). -/
def State.Of.resetAt (W : Nat) : State.Of W :=
  { mem := []
    extent := 0
    pc := 0
    rb := 0
    status := .running
    fault := none
    input := []
    inCursor := 0
    out := []
    retval := 0 }

/-- The machine right after reset with an empty image and an empty input (R36; log entry 8 says how a
program comes to run). -/
def State.reset : State := State.Of.resetAt Config.W

end Sys2Proof.Machine
end

