-- ==== Sys2Proof/Machine/Ops.lean ====
section
/-! DEFINITION. The named operations: the memory controller (spec/20_memory.md), the range check
(spec/00_scope.md R9), the register updates, the sequential advance (spec/40_step_and_operands.md
R121), and taking a fault (spec/60_exceptions.md R188).  There is no return from a fault: the only way
out of `Faulted` and `Halted` is reset (R190), which is `launch` in Machine/Launch.lean. -/

namespace Sys2Proof.Machine

variable {W : Nat}

/-! ### The sparse store -/

/-- The word at an address; 0 if the address is not listed, as one that was never written is not (R53, R56, R71). -/
def Memory.read : Memory W → Nat → Word W
  | [], _ => 0
  | (k, v) :: rest, a => if k = a then v else Memory.read rest a

/-- The store without what it lists at an address. -/
def Memory.erase : Memory W → Nat → Memory W
  | [], _ => []
  | (k, v) :: rest, a => if k = a then Memory.erase rest a else (k, v) :: Memory.erase rest a

/-- The store with one more entry, put before the first greater address. -/
def Memory.insert : Memory W → Nat → Word W → Memory W
  | [], a, v => [(a, v)]
  | (k, w) :: rest, a, v => if k < a then (k, w) :: Memory.insert rest a v else (a, v) :: (k, w) :: rest

/-- The store after a word is stored at an address (R54); a stored 0 is not listed. -/
def Memory.write (m : Memory W) (a : Nat) (v : Word W) : Memory W :=
  if v = 0 then Memory.erase m a else Memory.insert (Memory.erase m a) a v

/-- `MemRead(addr, 1)` (R53): it changes nothing. -/
def State.Of.memRead (s : State.Of W) (a : Addr W) : Word W := Memory.read s.mem a.val

/-- `MemWrite(addr, 1, v)` (R54): grow `extent` if the address is at or beyond it, then store; the words between the
old `extent` and the address stay unlisted, so they read as 0 (R56). -/
def State.Of.memWrite (s : State.Of W) (a : Addr W) (v : Word W) : State.Of W :=
  { s with
    mem := Memory.write s.mem a.val v
    extent := if s.extent ≤ a.val then a.val + 1 else s.extent }

/-! ### Register updates -/

/-- `pc <- n`. -/
def State.Of.setPc (s : State.Of W) (n : Addr W) : State.Of W := { s with pc := n }

/-- `rb <- v`. -/
def State.Of.setRb (s : State.Of W) (v : Word W) : State.Of W := { s with rb := v }

/-- `out <- out ++ [v]` (spec/42_io.md R146). -/
def State.Of.pushOut (s : State.Of W) (v : Word W) : State.Of W := { s with out := s.out ++ [v] }

/-- `in_cursor <- in_cursor + 1` (R145). -/
def State.Of.consumeInput (s : State.Of W) : State.Of W := { s with inCursor := s.inCursor + 1 }

/-- The effect of HALT: `retval <- MemRead(0, 1)`, `status <- Halted` (spec/43_control.md R157). -/
def State.Of.halt (s : State.Of W) : State.Of W := { s with retval := s.memRead 0, status := .halted }

/-! ### Faults -/

/-- Fault entry, `raise Cause(i1, i2)`: the fault record and `status` are written and nothing else; the
core stops and control goes nowhere (R188). -/
def State.Of.raise (s : State.Of W) (c : Cause.Of W) : State.Of W := { s with status := .faulted, fault := some c }

/-- The record a cause writes: its code and payload (R29, R180). -/
def Cause.Of.record : Cause.Of W → FaultRecord
  | .unknownOpcode opcode pc => { cause := 1, info1 := opcode, info2 := (pc.val : Int) }
  | .unknownParameterMode digit => { cause := 2, info1 := (digit : Int), info2 := 0 }
  | .unsupportedWriteMode => { cause := 3, info1 := 0, info2 := 0 }
  | .inputExhausted => { cause := 4, info1 := 0, info2 := 0 }
  | .negativeAddress => { cause := 5, info1 := 0, info2 := 0 }
  | .overflow => { cause := 6, info1 := 0, info2 := 0 }

/-- The `fault` port (R29): `(0, 0, 0)` when no fault is recorded. -/
def State.Of.faultRecord (s : State.Of W) : FaultRecord :=
  match s.fault with
  | none => { cause := 0, info1 := 0, info2 := 0 }
  | some c => c.record

/-- The end of an instruction: it completes with its new state, or the first fault it reached is taken
in the state from before the step, so that nothing else has changed (R119, R120). -/
def commit (s : State.Of W) (r : Except (Cause.Of W) (State.Of W)) : Host.Outcome (State.Of W) Fault Refusal :=
  match r with
  | .ok t => .next t
  | .error c => .next (s.raise c)

/-! ### Range checks -/

/-- `chk(v)`: the word of value `v`, or `Overflow` when `v` is outside `Int_W` (R9, R186). -/
def chk (v : Int) : Except (Cause.Of W) (Word W) :=
  if InIntW v W then .ok (Word.ofInt v) else .error .overflow

/-- `chk(pc + n)`, which is an address when it is in range because `pc >= 0`; used for parameter
addresses (R113) and for the sequential advance (R121).  Addresses do not wrap (spec/10_state.md R25). -/
def chkPc (s : State.Of W) (n : Nat) : Except (Cause.Of W) (Addr W) :=
  if h : s.pc.val + n < Config.AMAX W + 1 then .ok ⟨s.pc.val + n, h⟩ else .error .overflow

/-- `if a < 0 then raise NegativeAddress`: the address a word names (R117, R158). -/
def addrOf (a : Word W) : Except (Cause.Of W) (Addr W) :=
  if a.toInt < 0 then .error .negativeAddress else .ok ⟨a.toInt.toNat, Word.toNat_lt a⟩

/-- The sequential advance `pc <- chk(pc + n)` (R121). -/
def fallThrough (s : State.Of W) (n : Nat) : Except (Cause.Of W) (State.Of W) := do
  let p ← chkPc s n
  .ok (s.setPc p)

/-- A taken jump: `pc <- b`, an absolute address, or `NegativeAddress` if `b` is negative (R155, R158). -/
def jumpTo (s : State.Of W) (b : Word W) : Except (Cause.Of W) (State.Of W) := do
  let p ← addrOf b
  .ok (s.setPc p)

/-- `INPUT[in_cursor]`, or `InputExhausted` when no value remains (R145, R184). -/
def nextInput (s : State.Of W) : Except (Cause.Of W) (Word W) :=
  match s.input[s.inCursor]? with
  | some v => .ok v
  | none => .error .inputExhausted

end Sys2Proof.Machine
end

