-- ==== Sys2Proof/Syntax.lean ====
section
/-! DEFINITION. The instruction set as syntax: one constructor for each row of spec/opcode_table.json
(spec/30_encoding.md R85, R86, R90). -/

namespace Sys2Proof

/-- What a mode digit of an instruction word selects (R85). -/
inductive Mode where
  /-- digit 0 -/
  | position
  /-- digit 1 -/
  | immediate
  /-- digit 2 -/
  | relative
  /-- digits 3 to 9, which name no mode: resolving such a parameter raises `UnknownParameterMode` (R87) -/
  | unknown (digit : Nat)
  deriving DecidableEq, Repr

/-- The ten instructions (R90).  An instruction holds the modes of the parameters it uses, in the
order of its parameters; unused mode digits and all digits above the `10^4` place are dropped by the
decoder (R84, R88).  The raw parameters are not part of the instruction word (R89): `exec` reads
them from memory behind the program counter, as the spec's `raw(k)` does (R113; log entry 3). -/
inductive Instr where
  /-- ADD, opcode 1 (R132) -/
  | add (a b dest : Mode)
  /-- MUL, opcode 2 (R133) -/
  | mul (a b dest : Mode)
  /-- IN, opcode 3 (R145) -/
  | inp (dest : Mode)
  /-- OUT, opcode 4 (R146) -/
  | out (a : Mode)
  /-- JT, opcode 5 (R155) -/
  | jt (a b : Mode)
  /-- JF, opcode 6 (R156) -/
  | jf (a b : Mode)
  /-- LT, opcode 7 (R134) -/
  | lt (a b dest : Mode)
  /-- EQ, opcode 8 (R135) -/
  | eq (a b dest : Mode)
  /-- ARB, opcode 9 (R170) -/
  | arb (a : Mode)
  /-- HALT, opcode 99 (R157) -/
  | halt
  deriving DecidableEq, Repr

end Sys2Proof
end

