-- ==== Sys2Proof/Machine/Operands.lean ====
section
/-! DEFINITION. Parameter fetch and the memory address generator (spec/40_step_and_operands.md R113 to
R119).  Each function reports the first fault in the order of R119. -/

namespace Sys2Proof.Machine

variable {W : Nat}

/-- The two modes that form an address (R117). -/
inductive AddrMode where
  | position
  | relative
  deriving DecidableEq, Repr

/-- `raw(k)`: the parameter word at `pc + k`; `Overflow` if that is beyond `AMAX` (R113). -/
def raw (s : State.Of W) (k : Nat) : Except (Cause.Of W) (Word W) := do
  let p ← chkPc s k
  .ok (s.memRead p)

/-- `ea(m, r)`: the raw parameter itself, or its checked sum with the relative base, as an address
(R117). -/
def ea (s : State.Of W) (m : AddrMode) (r : Word W) : Except (Cause.Of W) (Addr W) :=
  match m with
  | .position => addrOf r
  | .relative => do
    let sum ← chk (r.toInt + s.rb.toInt)
    addrOf sum

/-- The address that parameter `k` names in an address-forming mode: `ea(m, raw(k))`. -/
def paramAddr (s : State.Of W) (k : Nat) (m : AddrMode) : Except (Cause.Of W) (Addr W) := do
  let r ← raw s k
  ea s m r

/-- Reading parameter `k` through the address it names (R115). -/
def readVia (s : State.Of W) (k : Nat) (m : AddrMode) : Except (Cause.Of W) (Word W) := do
  let a ← paramAddr s k m
  .ok (s.memRead a)

/-- `rd(k)`: read parameter `k`, whose mode is `m`, as an operand value (R114, R115). -/
def rd (s : State.Of W) (k : Nat) (m : Mode) : Except (Cause.Of W) (Word W) :=
  match m with
  | .unknown d => .error (.unknownParameterMode d)
  | .immediate => raw s k
  | .position => readVia s k .position
  | .relative => readVia s k .relative

/-- `wr(k)`: the address that write target `k`, whose mode is `m`, names (R114, R116).  It reads only the
raw parameter and writes nothing. -/
def wr (s : State.Of W) (k : Nat) (m : Mode) : Except (Cause.Of W) (Addr W) :=
  match m with
  | .unknown d => .error (.unknownParameterMode d)
  | .immediate => .error .unsupportedWriteMode
  | .position => paramAddr s k .position
  | .relative => paramAddr s k .relative

end Sys2Proof.Machine
end

