-- ==== Sys2Proof/Machine/Alu.lean ====
section
/-! DEFINITION. The arithmetic/logic unit and ADD, MUL, LT, EQ (spec/41_alu.md). -/

namespace Sys2Proof.Machine

variable {W : Nat}

/-- The ALU's operations; dispatch presents it with no other (R131). -/
inductive AluOp where
  | add
  | mul
  | lessThan
  | equals
  deriving DecidableEq, Repr

/-- `alu(op, a, b)`: the exact integer result (R130). -/
def alu (op : AluOp) (a b : Int) : Int :=
  match op with
  | .add => a + b
  | .mul => a * b
  | .lessThan => truthValue (decide (a < b))
  | .equals => truthValue (decide (a = b))

/-- The shape the four instructions share: two reads, a write target, the checked result, the checked
advance by 4, then the single write (R130, R132 to R135). -/
def aluInstr (op : AluOp) (ma mb mdest : Mode) (s : State.Of W) : Host.Outcome (State.Of W) Fault Refusal :=
  commit s do
    let a ← rd s 1 ma
    let b ← rd s 2 mb
    let d ← wr s 3 mdest
    let r ← chk (alu op a.toInt b.toInt)
    let n ← chkPc s 4
    .ok ((s.memWrite d r).setPc n)

/-- ADD (R132): `mem[dest] = a + b`. -/
def execAdd (ma mb mdest : Mode) (s : State.Of W) : Host.Outcome (State.Of W) Fault Refusal :=
  aluInstr .add ma mb mdest s

/-- MUL (R133): `mem[dest] = a * b`. -/
def execMul (ma mb mdest : Mode) (s : State.Of W) : Host.Outcome (State.Of W) Fault Refusal :=
  aluInstr .mul ma mb mdest s

/-- LT (R134): `mem[dest] = 1 if a < b else 0`, signed. -/
def execLt (ma mb mdest : Mode) (s : State.Of W) : Host.Outcome (State.Of W) Fault Refusal :=
  aluInstr .lessThan ma mb mdest s

/-- EQ (R135): `mem[dest] = 1 if a == b else 0`. -/
def execEq (ma mb mdest : Mode) (s : State.Of W) : Host.Outcome (State.Of W) Fault Refusal :=
  aluInstr .equals ma mb mdest s

end Sys2Proof.Machine
end

