-- ==== Sys2Proof/Machine/Control.lean ====
section
/-! DEFINITION. Control transfer and termination (spec/43_control.md). -/

namespace Sys2Proof.Machine

variable {W : Nat}

/-- JT (R155): if `a != 0` then `pc <- b`, else fall through by 3.  The target is resolved whether or
not the jump is taken (spec/40_step_and_operands.md R119). -/
def execJt (ma mb : Mode) (s : State.Of W) : Host.Outcome (State.Of W) Fault Refusal :=
  commit s do
    let a ← rd s 1 ma
    let b ← rd s 2 mb
    if wordIsTrue a then jumpTo s b else fallThrough s 3

/-- JF (R156): if `a == 0` then `pc <- b`, else fall through by 3. -/
def execJf (ma mb : Mode) (s : State.Of W) : Host.Outcome (State.Of W) Fault Refusal :=
  commit s do
    let a ← rd s 1 ma
    let b ← rd s 2 mb
    if wordIsTrue a then fallThrough s 3 else jumpTo s b

/-- HALT (R157): it cannot fault and leaves `pc` at the HALT word. -/
def execHalt (s : State.Of W) : Host.Outcome (State.Of W) Fault Refusal := .next s.halt

end Sys2Proof.Machine
end

