-- ==== Sys2Proof/Machine/Io.lean ====
section
/-! DEFINITION. The input and output instructions (spec/42_io.md). -/

namespace Sys2Proof.Machine

variable {W : Nat}

/-- IN (R145): store the next input value and advance the cursor.  The destination is resolved before
the input is examined, and IN never waits (R147). -/
def execIn (mdest : Mode) (s : State.Of W) : Host.Outcome (State.Of W) Fault Refusal :=
  commit s do
    let d ← wr s 1 mdest
    let v ← nextInput s
    let n ← chkPc s 2
    .ok (((s.memWrite d v).consumeInput).setPc n)

/-- OUT (R146): append the operand to the output sequence, which is unbounded (R148). -/
def execOut (ma : Mode) (s : State.Of W) : Host.Outcome (State.Of W) Fault Refusal :=
  commit s do
    let a ← rd s 1 ma
    let n ← chkPc s 2
    .ok ((s.pushOut a).setPc n)

end Sys2Proof.Machine
end

