-- ==== Sys2Proof/Machine/RelativeBase.lean ====
section
/-! DEFINITION. The relative-base instruction (spec/44_relative_base.md). -/

namespace Sys2Proof.Machine

variable {W : Nat}

/-- ARB (R170): `rb <- chk(rb + a)`; in Relative mode the operand is read with the old base. -/
def execArb (ma : Mode) (s : State.Of W) : Host.Outcome (State.Of W) Fault Refusal :=
  commit s do
    let a ← rd s 1 ma
    let v ← chk (s.rb.toInt + a.toInt)
    let n ← chkPc s 2
    .ok ((s.setRb v).setPc n)

end Sys2Proof.Machine
end

