-- ==== Sys2Proof/Machine/Dispatch.lean ====
section
/-! DEFINITION. Dispatch: one arm for each instruction (spec/40_step_and_operands.md R112). -/

namespace Sys2Proof.Machine

def exec (i : Instr) (s : State) : Host.Outcome State Fault Refusal :=
  match i with
  | .add a b dest => Sys2Proof.Machine.execAdd a b dest s
  | .mul a b dest => Sys2Proof.Machine.execMul a b dest s
  | .inp dest => Sys2Proof.Machine.execIn dest s
  | .out a => Sys2Proof.Machine.execOut a s
  | .jt a b => Sys2Proof.Machine.execJt a b s
  | .jf a b => Sys2Proof.Machine.execJf a b s
  | .lt a b dest => Sys2Proof.Machine.execLt a b dest s
  | .eq a b dest => Sys2Proof.Machine.execEq a b dest s
  | .arb a => Sys2Proof.Machine.execArb a s
  | .halt => Sys2Proof.Machine.execHalt s

end Sys2Proof.Machine
end

