-- ==== Sys2Proof/WellFormed.lean ====
section
/-! DEFINITION. Which terms of `Instr` an instruction word can stand for (spec/30_encoding.md R85),
and which of them have legal modes (R87). -/

namespace Sys2Proof

/-- A mode stands for one decimal digit: an unknown mode is one of the digits 3 to 9 (R85). -/
def Mode.wf : Mode → Bool
  | .position | .immediate | .relative => true
  | .unknown d => decide (3 ≤ d ∧ d ≤ 9)

/-- Every mode of the instruction stands for one decimal digit.  A well-formed instruction may still
fault when it runs: the decoder accepts every mode digit (R82). -/
def Instr.wf : Instr → Bool
  | .add a b dest | .mul a b dest | .lt a b dest | .eq a b dest => a.wf && b.wf && dest.wf
  | .inp dest => dest.wf
  | .out a | .arb a => a.wf
  | .jt a b | .jf a b => a.wf && b.wf
  | .halt => true

/-- The modes a read parameter accepts (R87). -/
def Mode.readable : Mode → Bool
  | .position | .immediate | .relative => true
  | .unknown _ => false

/-- The modes a write target accepts (R87). -/
def Mode.writable : Mode → Bool
  | .position | .relative => true
  | .immediate | .unknown _ => false

/-- Every parameter's mode is legal for its role (R86, R87). -/
def Instr.legal : Instr → Bool
  | .add a b dest | .mul a b dest | .lt a b dest | .eq a b dest => a.readable && b.readable && dest.writable
  | .inp dest => dest.writable
  | .out a | .arb a => a.readable
  | .jt a b | .jf a b => a.readable && b.readable
  | .halt => true

end Sys2Proof
end

