-- ==== Sys2Proof/Decode.lean ====
section
/-! DEFINITION. The instruction decoder and the canonical encoder (spec/30_encoding.md).  Instruction
fields are decimal digits of the word's value, not bit fields (R82). -/

namespace Sys2Proof

/-- `digit_k(a) = (a div 10^k) mod 10` (spec/00_scope.md R10). -/
def digit (k a : Nat) : Nat := a / 10 ^ k % 10

/-- The fields of an instruction word (R82). -/
structure Fields where
  opcode : Nat
  mode1 : Nat
  mode2 : Nat
  mode3 : Nat
  deriving DecidableEq, Repr

/-- The spec's `decode(w)` for `w >= 0`: the two low decimal digits and the digits at the `10^2`, `10^3`
and `10^4` places; digits above are ignored (R82, R84). -/
def splitFields (w : Nat) : Fields :=
  { opcode := w % 100, mode1 := digit 2 w, mode2 := digit 3 w, mode3 := digit 4 w }

/-- The pairing of mode digits and modes (R85). -/
def modeOfDigit (d : Nat) : Mode :=
  if d = 0 then .position
  else if d = 1 then .immediate
  else if d = 2 then .relative
  else .unknown d

/-- Why a word is no instruction: the opcode that `UnknownOpcode` records (R91). -/
inductive DecodeError where
  | unknownOpcode (opcode : Int)
  deriving DecidableEq, Repr

/-- The closed opcode map (R90): the opcode alone selects the instruction (spec/40_step_and_operands.md
R112), and only the mode digits of used parameters are kept (R88). -/
def selectInstr (f : Fields) : Except DecodeError Instr :=
  match f.opcode with
  | 1 => .ok (.add (modeOfDigit f.mode1) (modeOfDigit f.mode2) (modeOfDigit f.mode3))
  | 2 => .ok (.mul (modeOfDigit f.mode1) (modeOfDigit f.mode2) (modeOfDigit f.mode3))
  | 3 => .ok (.inp (modeOfDigit f.mode1))
  | 4 => .ok (.out (modeOfDigit f.mode1))
  | 5 => .ok (.jt (modeOfDigit f.mode1) (modeOfDigit f.mode2))
  | 6 => .ok (.jf (modeOfDigit f.mode1) (modeOfDigit f.mode2))
  | 7 => .ok (.lt (modeOfDigit f.mode1) (modeOfDigit f.mode2) (modeOfDigit f.mode3))
  | 8 => .ok (.eq (modeOfDigit f.mode1) (modeOfDigit f.mode2) (modeOfDigit f.mode3))
  | 9 => .ok (.arb (modeOfDigit f.mode1))
  | 99 => .ok .halt
  | op => .error (.unknownOpcode op)

/-- The decoder, total over all integers, as the spec's `decode` is (R82): a negative value has no legal opcode
and its recorded opcode is the truncating remainder `-((-v) mod 100)` (R83); any other value is split and looked up
(R82, R90).  The width of the word plays no part. -/
def decodeValue (v : Int) : Except DecodeError Instr :=
  if v < 0 then .error (.unknownOpcode (-((-v) % 100)))
  else selectInstr (splitFields v.toNat)

/-- The decoder on the words of this hardware. -/
def decode (w : Word) : Except DecodeError Instr := decodeValue w.toInt

/-- How many parameter words the instruction has (R81, R86). -/
def Instr.paramCount : Instr → Nat
  | .add .. | .mul .. | .lt .. | .eq .. => 3
  | .jt .. | .jf .. => 2
  | .inp _ | .out _ | .arb _ => 1
  | .halt => 0

/-- The instruction's length in words (R80, R81): a function of the opcode alone (R93). -/
def Instr.length (i : Instr) : Nat := 1 + i.paramCount

/-- The decimal digit of a mode (R85). -/
def Mode.digit : Mode → Nat
  | .position => 0
  | .immediate => 1
  | .relative => 2
  | .unknown d => d

/-- The opcode numbers (R90). -/
def Instr.opcode : Instr → Nat
  | .add .. => 1
  | .mul .. => 2
  | .inp _ => 3
  | .out _ => 4
  | .jt .. => 5
  | .jf .. => 6
  | .lt .. => 7
  | .eq .. => 8
  | .arb _ => 9
  | .halt => 99

/-- The three mode digits of the canonical word, unused ones 0 (R95). -/
def Instr.modeDigits : Instr → Nat × Nat × Nat
  | .add a b dest | .mul a b dest | .lt a b dest | .eq a b dest => (a.digit, b.digit, dest.digit)
  | .jt a b | .jf a b => (a.digit, b.digit, 0)
  | .inp m | .out m | .arb m => (m.digit, 0, 0)
  | .halt => (0, 0, 0)

/-- The canonical instruction word's value: `op + 100*m1 + 1000*m2 + 10000*m3` (R95). -/
def encodeNat (i : Instr) : Nat :=
  i.opcode + 100 * i.modeDigits.1 + 1000 * i.modeDigits.2.1 + 10000 * i.modeDigits.2.2

/-- The canonical instruction word (R94, R95). -/
def encode (i : Instr) : Word := BitVec.ofNat Config.W (encodeNat i)

/-- The whole instruction in memory: the canonical word, then its raw parameters in order (R80). -/
def encodeWith (i : Instr) (raws : List Word) : List Word := encode i :: raws

/-- Words 0 to 3 of an instruction of `nbits` bits given as one number whose bit 0 is the least
significant bit of the first word, every bit above `nbits` being 0 (log entry 5). -/
def tableWords (nbits w : Nat) : List Word :=
  let v := w % 2 ^ nbits
  [BitVec.ofNat Config.W v,
   BitVec.ofNat Config.W (v / 2 ^ Config.W),
   BitVec.ofNat Config.W (v / 2 ^ (2 * Config.W)),
   BitVec.ofNat Config.W (v / 2 ^ (3 * Config.W))]

/-- The instruction that this decoder reads from an instruction given as one number: the decoder needs
nothing but the first word (R93). -/
def decodeTableWord (nbits w : Nat) : Option Instr :=
  match tableWords nbits w with
  | [] => none
  | first :: _ => (decode first).toOption

end Sys2Proof
end

