-- ==== Sys2Proof/Machine/Fetch.lean ====
section
/-! DEFINITION. Instruction fetch, the fault of a word that is no instruction, and placing words where
the next fetch reads (spec/40_step_and_operands.md R110, R111). -/

namespace Sys2Proof.Machine

variable {W : Nat}

/-- `fetch()` is `MemRead(pc, 1)`: memory as it is now (R111; spec/20_memory.md R69). -/
def fetch (s : State.Of W) : Word W := s.memRead s.pc

/-- The fault of a word that the decoder refuses; it records the failing `pc` (R110;
spec/60_exceptions.md R181). -/
def causeOfDecodeError (e : DecodeError) (s : State.Of W) : Cause.Of W :=
  match e with
  | .unknownOpcode opcode => .unknownOpcode opcode s.pc

/-- Stores words from an offset behind `pc` upwards; a word that would lie beyond `AMAX` is not stored. -/
def placeWords (s : State.Of W) (offset : Nat) : List (Word W) → State.Of W
  | [] => s
  | w :: ws =>
    match chkPc s offset with
    | .ok p => placeWords (s.memWrite p w) (offset + 1) ws
    | .error _ => s

/-- One step, given what executing an instruction does (R110).  It is defined only when `status = Running`: terminal
states have no successor (R123). -/
def stepWith (execute : Instr → State.Of W → Host.Outcome (State.Of W) Fault Refusal) (s : State.Of W) :
    Host.Outcome (State.Of W) Fault Refusal :=
  match s.status with
  | .halted => .fault .haltedTakesNoStep
  | .faulted => .fault .faultedTakesNoStep
  | .running =>
    match decodeValue (fetch s).toInt with
    | .error e => .next (s.raise (causeOfDecodeError e s))
    | .ok i => execute i s

end Sys2Proof.Machine
end

