-- ==== Sys2Proof/Machine/Step.lean ====
section
/-! DEFINITION. One step runs one whole instruction (spec/40_step_and_operands.md R110). -/

namespace Sys2Proof.Machine

/-- The step function (R110, R123): `stepWith` runs the instruction that the word at `pc` decodes to. -/
def step (s : State) : Host.Outcome State Fault Refusal := stepWith exec s

/-- `s` with an instruction, given as one number of `nbits` bits, stored where the next fetch reads it,
and running, so that the next step runs it (log entries 5 and 8). -/
def State.withFetchWord (s : State) (nbits w : Nat) : State :=
  { placeWords s 0 (tableWords nbits w) with status := .running }

end Sys2Proof.Machine
end

