-- ==== Sys2Proof/Machine/Accesses.lean ====
section
/-! DEFINITION. The memory accesses of one step, in order (spec/20_memory.md R61, R66).  No instruction can
observe them; they are a view of `step`, and Certificates states that they are the right one. -/

namespace Sys2Proof.Machine

variable {W : Nat}

/-- One access to one word (R61). -/
inductive Access.Of (W : Nat) where
  | read (a : Addr W)
  | write (a : Addr W)
  deriving DecidableEq, Repr

/-- An access of this hardware. -/
abbrev Access := Access.Of Config.W

/-- What follows a stage of an instruction: nothing when the stage faults (R66). -/
def afterOk {α : Type} (r : Except (Cause.Of W) α) (rest : α → List (Access.Of W)) : List (Access.Of W) :=
  match r with
  | .ok x => rest x
  | .error _ => []

/-- The read of a raw parameter word (R113). -/
def rawAccess (s : State.Of W) (k : Nat) : List (Access.Of W) := afterOk (chkPc s k) fun p => [.read p]

/-- The accesses of a read parameter: the raw word, then the operand unless the mode is Immediate (R115). -/
def rdAccesses (s : State.Of W) (k : Nat) (m : Mode) : List (Access.Of W) :=
  match m with
  | .unknown _ => []
  | .immediate => rawAccess s k
  | .position => rawAccess s k ++ afterOk (paramAddr s k .position) fun a => [.read a]
  | .relative => rawAccess s k ++ afterOk (paramAddr s k .relative) fun a => [.read a]

/-- The accesses of a write target: its raw word (R116). -/
def wrAccesses (s : State.Of W) (k : Nat) (m : Mode) : List (Access.Of W) :=
  match m with
  | .unknown _ | .immediate => []
  | .position | .relative => rawAccess s k

/-- ADD, MUL, LT, EQ: the parameters in order, then the single write. -/
def aluAccesses (op : AluOp) (ma mb mdest : Mode) (s : State.Of W) : List (Access.Of W) :=
  rdAccesses s 1 ma ++ afterOk (rd s 1 ma) fun a =>
    rdAccesses s 2 mb ++ afterOk (rd s 2 mb) fun b =>
      wrAccesses s 3 mdest ++ afterOk (wr s 3 mdest) fun d =>
        afterOk (chk (alu op a.toInt b.toInt)) fun _ =>
          afterOk (chkPc s 4) fun _ => [.write d]

/-- IN: the raw parameter, then the single write. -/
def inAccesses (mdest : Mode) (s : State.Of W) : List (Access.Of W) :=
  wrAccesses s 1 mdest ++ afterOk (wr s 1 mdest) fun d =>
    afterOk (nextInput s) fun _ => afterOk (chkPc s 2) fun _ => [.write d]

/-- JT and JF: both parameters, whether or not the jump is taken (R119). -/
def jumpAccesses (ma mb : Mode) (s : State.Of W) : List (Access.Of W) :=
  rdAccesses s 1 ma ++ afterOk (rd s 1 ma) fun _ => rdAccesses s 2 mb

/-- The accesses an instruction makes after its own word has been fetched (R66). -/
def instrAccesses (i : Instr) (s : State.Of W) : List (Access.Of W) :=
  match i with
  | .add a b dest => aluAccesses .add a b dest s
  | .mul a b dest => aluAccesses .mul a b dest s
  | .lt a b dest => aluAccesses .lessThan a b dest s
  | .eq a b dest => aluAccesses .equals a b dest s
  | .inp dest => inAccesses dest s
  | .out a => rdAccesses s 1 a
  | .jt a b => jumpAccesses a b s
  | .jf a b => jumpAccesses a b s
  | .arb a => rdAccesses s 1 a
  | .halt => [.read 0]

/-- The accesses of the step from a state, in order: the instruction word first (R66); none in a terminal
state. -/
def stepAccesses (s : State.Of W) : List (Access.Of W) :=
  match s.status with
  | .halted | .faulted => []
  | .running =>
    .read s.pc ::
      match decodeValue (fetch s).toInt with
      | .error _ => []
      | .ok i => instrAccesses i s

end Sys2Proof.Machine
end

