-- ==== Sys2Proof/Machine/Assembler.lean ====
section
/-! DEFINITION. The spec's assembler notation (spec/30_encoding.md R96, R97): statements as data, their text,
and the words they assemble to. -/

namespace Sys2Proof.Machine

/-- An operand expression: a mode and the raw parameter it is written with (R96). -/
inductive Operand where
  /-- `n` -/
  | immediate (n : Word)
  /-- `mem[n]` -/
  | position (n : Word)
  /-- `mem[relative_base+n]`, or `mem[relative_base-n]` for a negative raw parameter -/
  | relative (n : Word)
  deriving DecidableEq, Repr

/-- The operand's mode (R96). -/
def Operand.mode : Operand → Mode
  | .immediate _ => .immediate
  | .position _ => .position
  | .relative _ => .relative

/-- The operand's raw parameter (R96). -/
def Operand.raw : Operand → Word
  | .immediate n | .position n | .relative n => n

/-- A statement: one of the ten mnemonics with as many operands as the instruction has parameters (R96),
or the `DATA` directive (R97). -/
inductive Statement where
  | add (a b dest : Operand)
  | mul (a b dest : Operand)
  | inp (dest : Operand)
  | out (a : Operand)
  | jt (a b : Operand)
  | jf (a b : Operand)
  | lt (a b dest : Operand)
  | eq (a b dest : Operand)
  | arb (a : Operand)
  | halt
  | data (words : List Word)
  deriving DecidableEq, Repr

/-- The instruction a statement names, with its raw parameters in order; none for `DATA`. -/
def Statement.instr : Statement → Option (Instr × List Word)
  | .add a b dest => some (.add a.mode b.mode dest.mode, [a.raw, b.raw, dest.raw])
  | .mul a b dest => some (.mul a.mode b.mode dest.mode, [a.raw, b.raw, dest.raw])
  | .inp dest => some (.inp dest.mode, [dest.raw])
  | .out a => some (.out a.mode, [a.raw])
  | .jt a b => some (.jt a.mode b.mode, [a.raw, b.raw])
  | .jf a b => some (.jf a.mode b.mode, [a.raw, b.raw])
  | .lt a b dest => some (.lt a.mode b.mode dest.mode, [a.raw, b.raw, dest.raw])
  | .eq a b dest => some (.eq a.mode b.mode dest.mode, [a.raw, b.raw, dest.raw])
  | .arb a => some (.arb a.mode, [a.raw])
  | .halt => some (.halt, [])
  | .data _ => none

/-- The words a statement assembles to: the canonical instruction word, then the raw parameters (R96); the
given words unchanged for `DATA` (R97). -/
def Statement.words : Statement → List Word
  | .data ws => ws
  | st =>
    match st.instr with
    | some (i, raws) => encodeWith i raws
    | none => []

/-- A program's words: its statements' words one after another, without padding (R80). -/
def assemble : List Statement → List Word
  | [] => []
  | st :: rest => st.words ++ assemble rest

/-- An operand's text (R96). -/
def Operand.text : Operand → String
  | .immediate n => toString n.toInt
  | .position n => "mem[" ++ toString n.toInt ++ "]"
  | .relative n =>
    if n.toInt < 0 then "mem[relative_base-" ++ toString (-n.toInt) ++ "]"
    else "mem[relative_base+" ++ toString n.toInt ++ "]"

/-- Operand texts separated as the notation has them (R96). -/
def commaSeparated : List String → String
  | [] => ""
  | [x] => x
  | x :: xs => x ++ ", " ++ commaSeparated xs

/-- A statement's text: the mnemonic of R90, then its operands (R96). -/
def Statement.text : Statement → String
  | .add a b dest => "ADD " ++ commaSeparated [a.text, b.text, dest.text]
  | .mul a b dest => "MUL " ++ commaSeparated [a.text, b.text, dest.text]
  | .inp dest => "IN " ++ dest.text
  | .out a => "OUT " ++ a.text
  | .jt a b => "JT " ++ commaSeparated [a.text, b.text]
  | .jf a b => "JF " ++ commaSeparated [a.text, b.text]
  | .lt a b dest => "LT " ++ commaSeparated [a.text, b.text, dest.text]
  | .eq a b dest => "EQ " ++ commaSeparated [a.text, b.text, dest.text]
  | .arb a => "ARB " ++ a.text
  | .halt => "HALT"
  | .data ws => "DATA " ++ commaSeparated (ws.map fun w => toString w.toInt)

end Sys2Proof.Machine
end

