-- ==== Sys2Proof/Machine/Launch.lean ====
section
/-! DEFINITION. The host's side (spec/70_reset_and_hazards.md): reset with an image and an input, and
what the host observes.  Reset is a launch, not a step, and no state survives it (R210, R217). -/

namespace Sys2Proof.Machine

variable {W : Nat}

/-- The store that holds an image contiguously from an address upwards (R211); zero words are not listed. -/
def Memory.ofImage : Nat → List (Word W) → Memory W
  | _, [] => []
  | a, v :: vs => if v = 0 then Memory.ofImage (a + 1) vs else (a, v) :: Memory.ofImage (a + 1) vs

/-- The state right after reset with an image and an input (spec/10_state.md R36). -/
def State.Of.boot (image input : List (Word W)) : State.Of W :=
  { State.Of.resetAt W with
    mem := Memory.ofImage 0 image
    extent := image.length
    input := input }

/-- The first value of a list that is outside `Int_W`, if there is one. -/
def firstOutside (W : Nat) : List Int → Option Int
  | [] => none
  | v :: vs => if InIntW v W then firstOutside W vs else some v

/-- Reset at a word width (R210): the host's image and input, each a finite sequence of integers, are taken whole.  A
value outside `Int_W` is refused, not truncated (R211); so is an image longer than the address space (log
entry 7). -/
def launchAt (W : Nat) (image input : List Int) : Host.Outcome (State.Of W) Fault Refusal :=
  match firstOutside W (image ++ input) with
  | some v => .refused (.launchValueOutsideIntW v)
  | none =>
    if image.length ≤ Config.AMAX W + 1 then
      .next (State.Of.boot (image.map Word.ofInt) (input.map Word.ofInt))
    else .refused (.launchImageTooLong image.length)

/-- Reset of this hardware (R210). -/
def launch (image input : List Int) : Host.Outcome State Fault Refusal := launchAt Config.W image input

/-- What the host sees of a run: `status` and `out` always, `retval`, the final memory and its extent when
halted, `fault` and the `pc` of the faulting instruction when faulted (R212, R214). -/
structure Observation.Of (W : Nat) where
  status : Nat
  out : List (Word W)
  retval : Option (Word W)
  finalMemory : Option (Memory W × Nat)
  fault : Option FaultRecord
  pc : Option (Addr W)
  deriving DecidableEq, Repr

/-- What the host sees of this hardware. -/
abbrev Observation := Observation.Of Config.W

/-- The core's outputs in a state (R212, R214). -/
def State.Of.observe (s : State.Of W) : Observation.Of W :=
  { status := s.status.code
    out := s.out
    retval := if s.status = .halted then some s.retval else none
    finalMemory := if s.status = .halted then some (s.mem, s.extent) else none
    fault := if s.status = .faulted then some s.faultRecord else none
    pc := if s.status = .faulted then some s.pc else none }

/-- The dump of the state a fault left behind, which the host may take for diagnosis and which is no result
(R216). -/
def State.Of.diagnosticDump (s : State.Of W) : Option (State.Of W) := if s.status = .faulted then some s else none

end Sys2Proof.Machine
end

