-- ==== Sys2Proof/Safety.lean ====
section
/-! DEFINITION. Runs, what counts as a safe one, and the invariant of every reachable state, in the terms
that claims use (spec/10_state.md R37; spec/40_step_and_operands.md R122; spec/70_reset_and_hazards.md
R214, R222). -/

namespace Sys2Proof.Machine

variable {W : Nat}

/-- The state after at most `fuel` steps of a step function: a terminal state takes no further step (R122, R123).
Running out of fuel is a verdict about the fuel, not a machine state (R222). -/
def runWith (next : State.Of W → Host.Outcome (State.Of W) Fault Refusal) : Nat → State.Of W → State.Of W
  | 0, s => s
  | fuel + 1, s =>
    match next s with
    | .next t => runWith next fuel t
    | .fault _ => s
    | .refused _ => s

/-- The state of this hardware after at most `fuel` steps. -/
def runFor (fuel : Nat) (s : State) : State := runWith step fuel s

/-- The run from `s` ends successfully within the fuel (R214). -/
def HaltsWithin (fuel : Nat) (s : State) : Prop := (runFor fuel s).status = .halted

/-- No fault is raised within the fuel (spec/60_exceptions.md R199): the run is safe so far. -/
def SafeFor (fuel : Nat) (s : State) : Prop := (runFor fuel s).status ≠ .faulted

/-- Opcode values that `UnknownOpcode` may record: those of R91, and the remainders of a negative word (R83). -/
def illegalOpcode (op : Int) : Bool :=
  decide (-99 ≤ op ∧ op ≤ 98 ∧ ¬(1 ≤ op ∧ op ≤ 9))

/-- A recorded fault has a payload that the spec allows (R29): an illegal opcode with the `pc` of the
instruction, which a fault leaves unchanged, or a mode digit 3 to 9. -/
def payloadOk (pc : Addr W) : Cause.Of W → Bool
  | .unknownOpcode op p => illegalOpcode op && decide (p = pc)
  | .unknownParameterMode d => decide (3 ≤ d ∧ d ≤ 9)
  | .unsupportedWriteMode | .inputExhausted | .negativeAddress | .overflow => true

/-- The invariant of reachable states (R37).  That `pc` is in `0 .. AMAX` and that `rb` and every word are in
`Int_W` holds by the types `Addr` and `Word`. -/
structure State.Of.Inv (s : State.Of W) : Prop where
  /-- the store is in its canonical form -/
  memWf : Memory.wf s.mem = true
  /-- every word that is not 0 lies below `extent` (R32, R37) -/
  memBelowExtent : ∀ a, s.extent ≤ a → Memory.read s.mem a = 0
  /-- `extent` is in `0 .. AMAX+1` (R20) -/
  extentRange : s.extent ≤ Config.AMAX W + 1
  /-- `in_cursor` is in `0 .. len(INPUT)` (R30) -/
  cursorRange : s.inCursor ≤ s.input.length
  /-- a cause is recorded exactly when the core is faulted (R29, R37) -/
  faultIffFaulted : s.fault.isSome = true ↔ s.status = .faulted
  /-- the recorded payload is a legal one (R29) -/
  faultPayload : ∀ c, s.fault = some c → payloadOk s.pc c = true
  /-- when halted, `retval` is the word at address 0 (R33) -/
  retvalHalted : s.status = .halted → s.retval = s.memRead 0
  /-- otherwise it holds its reset value (R33) -/
  retvalZero : s.status ≠ .halted → s.retval = 0

end Sys2Proof.Machine
end

