-- ==== Sys2Proof/Machine/Width.lean ====
section
/-! DEFINITION. The machine at any word width (spec/00_scope.md R4; spec/92_eei_decisions.md D1): the same meanings,
step and runs with the width `W` as an argument.  `exec`, `step` and `runFor` are these at this hardware's width. -/

namespace Sys2Proof.Machine

variable {W : Nat}

/-- Dispatch at any width (spec/40_step_and_operands.md R112). -/
def execAt (i : Instr) (s : State.Of W) : Host.Outcome (State.Of W) Fault Refusal :=
  match i with
  | .add a b dest => execAdd a b dest s
  | .mul a b dest => execMul a b dest s
  | .inp dest => execIn dest s
  | .out a => execOut a s
  | .jt a b => execJt a b s
  | .jf a b => execJf a b s
  | .lt a b dest => execLt a b dest s
  | .eq a b dest => execEq a b dest s
  | .arb a => execArb a s
  | .halt => execHalt s

/-- The step function at any width (R110). -/
def stepAt (s : State.Of W) : Host.Outcome (State.Of W) Fault Refusal := stepWith execAt s

/-- The state after at most `fuel` steps at any width (R122). -/
def runAt (fuel : Nat) (s : State.Of W) : State.Of W := runWith stepAt fuel s

end Sys2Proof.Machine
end

