-- ==== Sys2Proof/Certificates/Slice0/Vocabulary.lean ====
section
/-! DEFINITION. The words the obligations are written in: what a parameter reads as, names or faults with, in
the plain terms of spec/30_encoding.md R85 and spec/40_step_and_operands.md R113 to R119, without the model's
own operand functions. -/

namespace Sys2Proof.Claims

open Sys2Proof.Machine

/-- `M[a]`: the value of the word at an address (spec/00_scope.md R11). -/
def wordAt (s : State) (a : Nat) : Int := (Memory.read s.mem a).toInt

/-- The raw parameter `k`: the word at `pc + k` (R113). -/
def param (s : State) (k : Nat) : Int := wordAt s (s.pc.val + k)

/-- `raw + rb` (R117). -/
def relativeSum (s : State) (k : Nat) : Int := param s k + s.rb.toInt

/-- Read parameter `k` in a mode is the operand value `v` (R85, R115). -/
inductive ReadsAs (s : State) (k : Nat) : Mode → Int → Prop
  | position {v : Int} (reach : s.pc.val + k ≤ Config.AMAX) (nonneg : 0 ≤ param s k)
      (value : v = wordAt s (param s k).toNat) : ReadsAs s k .position v
  | immediate {v : Int} (reach : s.pc.val + k ≤ Config.AMAX) (value : v = param s k) : ReadsAs s k .immediate v
  | relative {v : Int} (reach : s.pc.val + k ≤ Config.AMAX) (inRange : InIntW (relativeSum s k))
      (nonneg : 0 ≤ relativeSum s k) (value : v = wordAt s (relativeSum s k).toNat) : ReadsAs s k .relative v

/-- Write target `k` in a mode names the address `d` (R85, R116). -/
inductive Targets (s : State) (k : Nat) : Mode → Nat → Prop
  | position {d : Nat} (reach : s.pc.val + k ≤ Config.AMAX) (address : (d : Int) = param s k) :
      Targets s k .position d
  | relative {d : Nat} (reach : s.pc.val + k ≤ Config.AMAX) (inRange : InIntW (relativeSum s k))
      (address : (d : Int) = relativeSum s k) : Targets s k .relative d

/-- Forming the address of parameter `k` in a Position or Relative mode faults (R113, R117). -/
inductive AddressFaults (s : State) (k : Nat) : Mode → Cause → Prop
  | positionBeyond (beyond : Config.AMAX < s.pc.val + k) : AddressFaults s k .position .overflow
  | relativeBeyond (beyond : Config.AMAX < s.pc.val + k) : AddressFaults s k .relative .overflow
  | sumOutside (reach : s.pc.val + k ≤ Config.AMAX) (outside : ¬InIntW (relativeSum s k)) :
      AddressFaults s k .relative .overflow
  | positionNegative (reach : s.pc.val + k ≤ Config.AMAX) (negative : param s k < 0) :
      AddressFaults s k .position .negativeAddress
  | relativeNegative (reach : s.pc.val + k ≤ Config.AMAX) (inRange : InIntW (relativeSum s k))
      (negative : relativeSum s k < 0) : AddressFaults s k .relative .negativeAddress

/-- Resolving read parameter `k` faults, with its first fault (R114, R115, R119). -/
inductive ReadFaults (s : State) (k : Nat) : Mode → Cause → Prop
  | unknownMode (d : Nat) : ReadFaults s k (.unknown d) (.unknownParameterMode d)
  | immediateBeyond (beyond : Config.AMAX < s.pc.val + k) : ReadFaults s k .immediate .overflow
  | address {m : Mode} {c : Cause} (faults : AddressFaults s k m c) : ReadFaults s k m c

/-- Resolving write target `k` faults, with its first fault (R114, R116, R119). -/
inductive TargetFaults (s : State) (k : Nat) : Mode → Cause → Prop
  | unknownMode (d : Nat) : TargetFaults s k (.unknown d) (.unknownParameterMode d)
  | immediate : TargetFaults s k .immediate .unsupportedWriteMode
  | address {m : Mode} {c : Cause} (faults : AddressFaults s k m c) : TargetFaults s k m c

/-- The state in which fault `c` has been taken: `status` and the fault record differ from `s`, and nothing
else (spec/60_exceptions.md R188). -/
def faultedWith (s : State) (c : Cause) : State := { s with status := .faulted, fault := some c }

/-- From `s` to `t` the value `v` was stored at address `d`: every other address reads as before, and
`extent` has grown just enough to cover `d` (spec/20_memory.md R54). -/
def StoredAt (s t : State) (d : Nat) (v : Int) : Prop :=
  wordAt t d = v ∧ (∀ a, a ≠ d → wordAt t a = wordAt s a) ∧ t.extent = max s.extent (d + 1)

/-- Every address reads as before and `extent` is unchanged. -/
def MemoryKept (s t : State) : Prop := (∀ a, wordAt t a = wordAt s a) ∧ t.extent = s.extent

/-- `status`, the fault record and `retval` are unchanged. -/
def StatusKept (s t : State) : Prop := t.status = s.status ∧ t.fault = s.fault ∧ t.retval = s.retval

/-- `INPUT` and `in_cursor` are unchanged. -/
def InputKept (s t : State) : Prop := t.input = s.input ∧ t.inCursor = s.inCursor

/-- The three parameters of ADD, MUL, LT and EQ resolve (R86). -/
def ThreeParams (s : State) (ma mb md : Mode) (a b : Int) (d : Nat) : Prop :=
  ReadsAs s 1 ma a ∧ ReadsAs s 2 mb b ∧ Targets s 3 md d

/-- The first fault among the three parameters, in the order 1, 2, 3 (R119). -/
def ThreeParamsFault (s : State) (ma mb md : Mode) (c : Cause) : Prop :=
  ReadFaults s 1 ma c ∨ (∃ a, ReadsAs s 1 ma a ∧ ReadFaults s 2 mb c) ∨
    ∃ a b, ReadsAs s 1 ma a ∧ ReadsAs s 2 mb b ∧ TargetFaults s 3 md c

/-- The first fault among the two parameters of JT and JF (R119). -/
def TwoParamsFault (s : State) (ma mb : Mode) (c : Cause) : Prop :=
  ReadFaults s 1 ma c ∨ ∃ a, ReadsAs s 1 ma a ∧ ReadFaults s 2 mb c

/-- The canonical instruction word's value (R95). -/
def canonicalWord (op : Nat) (m1 m2 m3 : Nat) : Int := op + 100 * m1 + 1000 * m2 + 10000 * m3

/-- The whole rule of an instruction of the ALU family whose result is `f a b` (spec/41_alu.md R132 to R135):
its encoding and length; what it stores and what it leaves alone when it completes; and its faults, the
parameters' first, then the advance. -/
def AluRule (mk : Mode → Mode → Mode → Instr) (op : Nat) (f : Int → Int → Int) : Prop :=
  ∀ (ma mb md : Mode) (s : State),
    (ma.wf = true → mb.wf = true → md.wf = true →
      decode (Word.ofInt (canonicalWord op ma.digit mb.digit md.digit)) = .ok (mk ma mb md) ∧
        (mk ma mb md).length = 4) ∧
    (∀ a b d, ThreeParams s ma mb md a b d → InIntW (f a b) → s.pc.val + 4 ≤ Config.AMAX →
      ∃ t, exec (mk ma mb md) s = .next t ∧ StoredAt s t d (f a b) ∧ t.pc.val = s.pc.val + 4 ∧
        t.rb = s.rb ∧ StatusKept s t ∧ InputKept s t ∧ t.out = s.out) ∧
    (∀ c, ThreeParamsFault s ma mb md c → exec (mk ma mb md) s = .next (faultedWith s c)) ∧
    (∀ a b d, ThreeParams s ma mb md a b d → Config.AMAX < s.pc.val + 4 →
      exec (mk ma mb md) s = .next (faultedWith s .overflow))

/-- The part of the rule of ADD and MUL that LT and EQ do not have: a result outside `Int_W` faults (R132, R133). -/
def AluOverflowRule (mk : Mode → Mode → Mode → Instr) (f : Int → Int → Int) : Prop :=
  ∀ (ma mb md : Mode) (s : State) (a b : Int) (d : Nat), ThreeParams s ma mb md a b d → ¬InIntW (f a b) →
    exec (mk ma mb md) s = .next (faultedWith s .overflow)

/-- The whole rule of a conditional jump that is taken when `taken a` (spec/43_control.md R155, R156). -/
def JumpRule (mk : Mode → Mode → Instr) (op : Nat) (taken : Int → Prop) : Prop :=
  ∀ (ma mb : Mode) (s : State),
    (ma.wf = true → mb.wf = true →
      decode (Word.ofInt (canonicalWord op ma.digit mb.digit 0)) = .ok (mk ma mb) ∧ (mk ma mb).length = 3) ∧
    (∀ a b, ReadsAs s 1 ma a → ReadsAs s 2 mb b → taken a → 0 ≤ b →
      ∃ t, exec (mk ma mb) s = .next t ∧ (t.pc.val : Int) = b ∧
        MemoryKept s t ∧ t.rb = s.rb ∧ StatusKept s t ∧ InputKept s t ∧ t.out = s.out) ∧
    (∀ a b, ReadsAs s 1 ma a → ReadsAs s 2 mb b → ¬taken a → s.pc.val + 3 ≤ Config.AMAX →
      ∃ t, exec (mk ma mb) s = .next t ∧ t.pc.val = s.pc.val + 3 ∧
        MemoryKept s t ∧ t.rb = s.rb ∧ StatusKept s t ∧ InputKept s t ∧ t.out = s.out) ∧
    (∀ c, TwoParamsFault s ma mb c → exec (mk ma mb) s = .next (faultedWith s c)) ∧
    (∀ a b, ReadsAs s 1 ma a → ReadsAs s 2 mb b → taken a → b < 0 →
      exec (mk ma mb) s = .next (faultedWith s .negativeAddress)) ∧
    (∀ a b, ReadsAs s 1 ma a → ReadsAs s 2 mb b → ¬taken a → Config.AMAX < s.pc.val + 3 →
      exec (mk ma mb) s = .next (faultedWith s .overflow))

/-- The modes of the parameters an instruction uses, in order (R86). -/
def usedModes : Instr → List Mode
  | .add a b d | .mul a b d | .lt a b d | .eq a b d => [a, b, d]
  | .jt a b | .jf a b => [a, b]
  | .inp m | .out m | .arb m => [m]
  | .halt => []

/-- The instruction has a write target of this mode: ADD, MUL, LT, EQ and IN do (R86). -/
inductive HasTarget (m : Mode) : Instr → Prop
  | add (a b : Mode) : HasTarget m (.add a b m)
  | mul (a b : Mode) : HasTarget m (.mul a b m)
  | lt (a b : Mode) : HasTarget m (.lt a b m)
  | eq (a b : Mode) : HasTarget m (.eq a b m)
  | inp : HasTarget m (.inp m)

/-- The instruction is a conditional jump. -/
inductive IsJump : Instr → Prop
  | jt (a b : Mode) : IsJump (.jt a b)
  | jf (a b : Mode) : IsJump (.jf a b)

/-- Parameter `k` of the instruction has this mode (R86). -/
def UsesParam (i : Instr) (k : Nat) (m : Mode) : Prop := 1 ≤ k ∧ (usedModes i)[k - 1]? = some m

/-- The instruction is a jump that is taken and whose target is negative (spec/43_control.md R155, R156, R158). -/
inductive JumpsBelowZero (s : State) : Instr → Prop
  | jt {ma mb : Mode} {a b : Int} (condition : ReadsAs s 1 ma a) (target : ReadsAs s 2 mb b) (taken : a ≠ 0)
      (negative : b < 0) : JumpsBelowZero s (.jt ma mb)
  | jf {ma mb : Mode} {a b : Int} (condition : ReadsAs s 1 ma a) (target : ReadsAs s 2 mb b) (taken : a = 0)
      (negative : b < 0) : JumpsBelowZero s (.jf ma mb)

/-- The instruction's result is outside `Int_W`: a sum, a product or a new relative base (R132, R133, R170). -/
inductive ResultOutside (s : State) : Instr → Prop
  | add {ma mb md : Mode} {a b : Int} {d : Nat} (params : ThreeParams s ma mb md a b d) (outside : ¬InIntW (a + b)) :
      ResultOutside s (.add ma mb md)
  | mul {ma mb md : Mode} {a b : Int} {d : Nat} (params : ThreeParams s ma mb md a b d) (outside : ¬InIntW (a * b)) :
      ResultOutside s (.mul ma mb md)
  | arb {ma : Mode} {a : Int} (param : ReadsAs s 1 ma a) (outside : ¬InIntW (s.rb.toInt + a)) : ResultOutside s (.arb ma)

/-- The step from `s` runs this instruction: the core is running and the word at `pc` decodes to it (R110). -/
def Runs (s : State) (i : Instr) : Prop := s.status = .running ∧ decode (s.memRead s.pc) = .ok i

/-- The step from `s` writes address `a`: it completes an instruction whose write target names that address
(spec/20_memory.md R56; spec/40_step_and_operands.md R116). -/
def Writes (s : State) (a : Nat) : Prop :=
  ∃ i m t, Runs s i ∧ step s = .next t ∧ t.status ≠ .faulted ∧ HasTarget m i ∧ Targets s (usedModes i).length m a

/-- A mode whose digit is this one (R85). -/
inductive ModeOf : Nat → Mode → Prop
  | position : ModeOf 0 .position
  | immediate : ModeOf 1 .immediate
  | relative : ModeOf 2 .relative
  | unknown (d : Nat) (low : 3 ≤ d) (high : d ≤ 9) : ModeOf d (.unknown d)

/-- The opcode map: this opcode and these three modes select this instruction (R90, R112); an instruction
with fewer parameters takes the first ones and ignores the others (R88). -/
inductive Selects (m1 m2 m3 : Mode) : Nat → Instr → Prop
  | add : Selects m1 m2 m3 1 (.add m1 m2 m3)
  | mul : Selects m1 m2 m3 2 (.mul m1 m2 m3)
  | inp : Selects m1 m2 m3 3 (.inp m1)
  | out : Selects m1 m2 m3 4 (.out m1)
  | jt : Selects m1 m2 m3 5 (.jt m1 m2)
  | jf : Selects m1 m2 m3 6 (.jf m1 m2)
  | lt : Selects m1 m2 m3 7 (.lt m1 m2 m3)
  | eq : Selects m1 m2 m3 8 (.eq m1 m2 m3)
  | arb : Selects m1 m2 m3 9 (.arb m1)
  | halt : Selects m1 m2 m3 99 .halt

/-- How many operand words an instruction reads through an address: one for each read parameter that is not
Immediate; HALT reads address 0 (spec/20_memory.md R66). -/
def operandReads : Instr → Nat
  | .add a b _ | .mul a b _ | .lt a b _ | .eq a b _ | .jt a b | .jf a b =>
    (if a = .immediate then 0 else 1) + (if b = .immediate then 0 else 1)
  | .out a | .arb a => if a = .immediate then 0 else 1
  | .inp _ => 0
  | .halt => 1

/-- How many words an instruction writes (R66). -/
def wordsWritten : Instr → Nat
  | .add .. | .mul .. | .lt .. | .eq .. | .inp _ => 1
  | .out _ | .jt .. | .jf .. | .arb _ | .halt => 0

/-- Every element of two states, of whatever widths, has the same value; the words of memory at every address
(spec/00_scope.md R4). -/
structure SameValues {V W : Nat} (s : State.Of V) (t : State.Of W) : Prop where
  mem : ∀ a, (Memory.read t.mem a).toInt = (Memory.read s.mem a).toInt
  extent : t.extent = s.extent
  pc : t.pc.val = s.pc.val
  rb : t.rb.toInt = s.rb.toInt
  status : t.status = s.status
  fault : t.faultRecord = s.faultRecord
  input : t.input.map BitVec.toInt = s.input.map BitVec.toInt
  inCursor : t.inCursor = s.inCursor
  out : t.out.map BitVec.toInt = s.out.map BitVec.toInt
  retval : t.retval.toInt = s.retval.toInt

/-- The fault record holds no overflow: no integer has left the range of this width (spec/60_exceptions.md R186). -/
def NoOverflow {W : Nat} (s : State.Of W) : Prop := s.faultRecord.cause ≠ 6
  deriving Decidable

end Sys2Proof.Claims
end

