-- ==== Sys2Proof/Certificates/Slice0/Obligations.lean ====
section
/-! DEFINITION. The statements for the provers.  Rule numbers are those of spec/. -/

open Sys2Proof Sys2Proof.Machine Sys2Proof.Claims

/-! ### Parameters, reset and the host -/

/-- The derived constants for `W = 64`, written out (R5, which the spec marks derived; `W` is its decision D1). -/
def Obligations.WordRangeIsSixtyFourBitSigned : Prop :=
  (∀ v : Int, InIntW v ↔ -9223372036854775808 ≤ v ∧ v ≤ 9223372036854775807) ∧
    Config.AMAX = 9223372036854775807 ∧ (∀ w : Word, InIntW w.toInt) ∧
    ∀ v : Int, InIntW v → ∃ w : Word, w.toInt = v

/-- R36: what a launch leaves in every state element. -/
def Obligations.LaunchLeavesTheResetValues : Prop :=
  ∀ image input : List Int,
    (∀ v ∈ image, InIntW v) → (∀ v ∈ input, InIntW v) → image.length ≤ Config.AMAX + 1 →
      ∃ s, launch image input = .next s ∧
        (∀ (a : Nat) (h : a < image.length), wordAt s a = image[a]) ∧
        (∀ a : Nat, image.length ≤ a → wordAt s a = 0) ∧
        s.extent = image.length ∧ s.pc.val = 0 ∧ s.rb.toInt = 0 ∧ s.status = .running ∧
        s.faultRecord = { cause := 0, info1 := 0, info2 := 0 } ∧
        s.input.map BitVec.toInt = input ∧ s.inCursor = 0 ∧ s.out = [] ∧ s.retval.toInt = 0

/-- A launch with a value outside `Int_W`, or with more words than there are addresses (log entry 7: the model's
reading), is refused. -/
def Obligations.LaunchRefusesWhatTheHostMayNotOffer : Prop :=
  ∀ image input : List Int,
    ((∃ v ∈ image ++ input, ¬InIntW v) ∨ Config.AMAX + 1 < image.length) →
      ∃ r, launch image input = .refused r

/-- The fixed reset state is the launch of an empty image with an empty input (log entry 8: the model's choice). -/
def Obligations.ResetIsTheEmptyLaunch : Prop := launch [] [] = .next State.reset

/-- What the host sees at the two ends of a run: after a halt the word at address 0, the outputs and the final memory
and no fault; after a fault its record, the faulting instruction's `pc`, the outputs already delivered, the state left
behind as a dump, and neither result. -/
def Obligations.HostSeesTheEndOfTheRun : Prop :=
  ∀ s : State, s.Inv →
    s.observe.out = s.out ∧
    (s.status = .halted →
      s.observe.status = 1 ∧ s.observe.retval = some (s.memRead 0) ∧
        s.observe.finalMemory = some (s.mem, s.extent) ∧ s.observe.fault = none ∧ s.observe.pc = none ∧
        s.diagnosticDump = none) ∧
    (s.status = .faulted →
      s.observe.status = 2 ∧ s.observe.retval = none ∧ s.observe.finalMemory = none ∧
        s.observe.pc = some s.pc ∧ s.diagnosticDump = some s ∧
        ∃ r, s.observe.fault = some r ∧ 1 ≤ r.cause ∧ r.cause ≤ 6)

/-! ### Memory -/

/-- R54: a write stores its value, leaves every other address alone, grows `extent` just to cover the address and
never shrinks it, and what lies between the old extent and the address reads as 0. -/
def Obligations.MemWriteStoresGrowsAndZeroFills : Prop :=
  ∀ (s : State) (a : Addr) (v : Word), (∀ b, s.extent ≤ b → wordAt s b = 0) →
    StoredAt s (s.memWrite a v) a.val v.toInt ∧
      (s.memWrite a v).memRead a = v ∧
      (∀ b, s.extent ≤ b → b < a.val → wordAt (s.memWrite a v) b = 0) ∧
      (∀ b, (s.memWrite a v).extent ≤ b → wordAt (s.memWrite a v) b = 0) ∧
      (s.memWrite a v).pc = s.pc ∧ (s.memWrite a v).rb = s.rb ∧ StatusKept s (s.memWrite a v) ∧
      InputKept s (s.memWrite a v) ∧ (s.memWrite a v).out = s.out

/-- The canonical form of the store is one form: stores that read alike at every address are equal data (log entry 2:
the model's choice; R71 fixes no structure). -/
def Obligations.CanonicalMemoryIsDeterminedByItsReads : Prop :=
  ∀ m m' : Memory, Memory.wf m = true → Memory.wf m' = true →
    (∀ a, Memory.read m a = Memory.read m' a) → m = m'

/-! ### Encoding -/

/-- R82 (with R88 and the opcode map R90): a word whose value is composed of an opcode, three mode digits and anything above them
decodes to the instruction that the opcode selects with those modes; any other opcode decodes to no instruction. -/
def Obligations.DecodeReadsTheDecimalFields : Prop :=
  ∀ (w : Word) (op d1 d2 d3 high : Nat) (m1 m2 m3 : Mode),
    w.toInt = op + 100 * d1 + 1000 * d2 + 10000 * d3 + 100000 * high → op < 100 →
    ModeOf d1 m1 → ModeOf d2 m2 → ModeOf d3 m3 →
      (∀ i, decode w = .ok i ↔ Selects m1 m2 m3 op i) ∧
        ((∀ i, ¬Selects m1 m2 m3 op i) → decode w = .error (.unknownOpcode op))

/-- Decoding the canonical word of any well-formed instruction gives it back, with every mode at every digit. -/
def Obligations.DecodeInvertsEncode : Prop :=
  ∀ i : Instr, i.wf = true → 0 ≤ (encode i).toInt ∧ decode (encode i) = .ok i

/-- What a word decodes to is well-formed, and the canonical word is the least word that decodes to it. -/
def Obligations.CanonicalWordIsTheLeastEncoding : Prop :=
  ∀ (w : Word) (i : Instr), decode w = .ok i →
    i.wf = true ∧ decode (encode i) = .ok i ∧ (encode i).toInt ≤ w.toInt

/-- Words of the source's own programs and of the derived vectors, decoded by hand (spec/95_test_vectors.md S12, V-D2
to V-D7). -/
def Obligations.SampleWordsDecode : Prop :=
  decode 1 = .ok (.add .position .position .position) ∧
  decode 1102 = .ok (.mul .immediate .immediate .position) ∧
  decode 203 = .ok (.inp .relative) ∧
  decode 204 = .ok (.out .relative) ∧
  decode 1105 = .ok (.jt .immediate .immediate) ∧
  decode 1006 = .ok (.jf .position .immediate) ∧
  decode 1107 = .ok (.lt .immediate .immediate .position) ∧
  decode 21208 = .ok (.eq .relative .immediate .relative) ∧
  decode 109 = .ok (.arb .immediate) ∧
  decode 99999 = .ok .halt ∧
  decode 2301101 = .ok (.add .immediate .immediate .position) ∧
  decode 33304 = .ok (.out (.unknown 3)) ∧
  decode 98 = .error (.unknownOpcode 98) ∧
  decode (-199) = .error (.unknownOpcode (-99))

/-- A statement of the assembler notation, placed at `pc`, is decoded as the instruction it names, and its raw
parameters are the ones fetched. -/
def Obligations.AssembledStatementIsFetchedBack : Prop :=
  ∀ (st : Statement) (i : Instr) (raws : List Word) (s : State), st.instr = some (i, raws) →
    (∀ (j : Nat) (h : j < st.words.length),
      s.pc.val + j ≤ Config.AMAX ∧ Memory.read s.mem (s.pc.val + j) = st.words[j]) →
      decode (s.memRead s.pc) = .ok i ∧ st.words.length = i.length ∧
        ∀ (k : Nat) (h : k < raws.length), raw s (k + 1) = .ok raws[k]

/-! ### Parameters -/

/-- R113, R115, R117 (the overflow of the address sum is the spec's decision D2): a read parameter resolves to exactly the value, or to exactly the first fault, that the rules
give; one of the two always holds. -/
def Obligations.ReadParameterResolvesAsStated : Prop :=
  ∀ (s : State) (k : Nat) (m : Mode),
    (∀ w : Word, rd s k m = .ok w ↔ ReadsAs s k m w.toInt) ∧
    (∀ c, rd s k m = .error c ↔ ReadFaults s k m c) ∧
    ((∃ v, ReadsAs s k m v) ∨ ∃ c, ReadFaults s k m c)

/-- R116: a write target resolves to exactly the address, or to exactly the first fault, that the rule gives; one of
the two always holds. -/
def Obligations.WriteTargetResolvesAsStated : Prop :=
  ∀ (s : State) (k : Nat) (m : Mode),
    (∀ a : Addr, wr s k m = .ok a ↔ Targets s k m a.val) ∧
    (∀ c, wr s k m = .error c ↔ TargetFaults s k m c) ∧
    ((∃ a, Targets s k m a) ∨ ∃ c, TargetFaults s k m c)

/-- R118: an Immediate read depends on the word at `pc + k` and on nothing else. -/
def Obligations.ImmediateReadIsModeIndependent : Prop :=
  ∀ (s s' : State) (k : Nat) (h : s.pc.val + k < Config.AMAX + 1), s'.pc = s.pc →
    Memory.read s'.mem (s.pc.val + k) = Memory.read s.mem (s.pc.val + k) →
      rd s k .immediate = .ok (s.memRead ⟨s.pc.val + k, h⟩) ∧ rd s' k .immediate = rd s k .immediate

/-! ### The ten instructions -/

/-- R132: ADD, whole; the fault of a sum outside `Int_W` is the spec's decision D2, stated in the rule. -/
def Obligations.AddStoresTheSum : Prop :=
  AluRule .add 1 (fun a b => a + b) ∧ AluOverflowRule .add (fun a b => a + b)

/-- R133: MUL, whole; the fault of a product outside `Int_W` is the spec's decision D2, stated in the rule. -/
def Obligations.MulStoresTheProduct : Prop :=
  AluRule .mul 2 (fun a b => a * b) ∧ AluOverflowRule .mul (fun a b => a * b)

/-- R134: LT, whole; its result cannot be out of range. -/
def Obligations.LtStoresTheSignedOrder : Prop :=
  AluRule .lt 7 (fun a b => if a < b then 1 else 0) ∧ ∀ a b : Int, InIntW (if a < b then 1 else 0)

/-- R135: EQ, whole; its result cannot be out of range. -/
def Obligations.EqStoresTheEquality : Prop :=
  AluRule .eq 8 (fun a b => if a = b then 1 else 0) ∧ ∀ a b : Int, InIntW (if a = b then 1 else 0)

/-- R145: IN, whole. -/
def Obligations.InStoresTheNextInput : Prop :=
  ∀ (md : Mode) (s : State),
    (md.wf = true → decode (Word.ofInt (canonicalWord 3 md.digit 0 0)) = .ok (.inp md) ∧ (Instr.inp md).length = 2) ∧
    (∀ (d : Nat) (h : s.inCursor < s.input.length), Targets s 1 md d → s.pc.val + 2 ≤ Config.AMAX →
      ∃ t, exec (.inp md) s = .next t ∧ StoredAt s t d (s.input[s.inCursor]).toInt ∧
        t.inCursor = s.inCursor + 1 ∧ t.pc.val = s.pc.val + 2 ∧ t.input = s.input ∧ t.rb = s.rb ∧
        StatusKept s t ∧ t.out = s.out) ∧
    (∀ c, TargetFaults s 1 md c → exec (.inp md) s = .next (faultedWith s c)) ∧
    (∀ d, Targets s 1 md d → s.input.length ≤ s.inCursor →
      exec (.inp md) s = .next (faultedWith s .inputExhausted)) ∧
    (∀ d, Targets s 1 md d → s.inCursor < s.input.length → Config.AMAX < s.pc.val + 2 →
      exec (.inp md) s = .next (faultedWith s .overflow))

/-- R146: OUT, whole. -/
def Obligations.OutAppendsTheOperand : Prop :=
  ∀ (ma : Mode) (s : State),
    (ma.wf = true → decode (Word.ofInt (canonicalWord 4 ma.digit 0 0)) = .ok (.out ma) ∧ (Instr.out ma).length = 2) ∧
    (∀ a, ReadsAs s 1 ma a → s.pc.val + 2 ≤ Config.AMAX →
      ∃ t v, exec (.out ma) s = .next t ∧ t.out = s.out ++ [v] ∧ v.toInt = a ∧ t.pc.val = s.pc.val + 2 ∧
        MemoryKept s t ∧ t.rb = s.rb ∧ StatusKept s t ∧ InputKept s t) ∧
    (∀ c, ReadFaults s 1 ma c → exec (.out ma) s = .next (faultedWith s c)) ∧
    (∀ a, ReadsAs s 1 ma a → Config.AMAX < s.pc.val + 2 → exec (.out ma) s = .next (faultedWith s .overflow))

/-- R155: JT, whole. -/
def Obligations.JtJumpsWhenNonZero : Prop := JumpRule .jt 5 (fun a => a ≠ 0)

/-- R156: JF, whole. -/
def Obligations.JfJumpsWhenZero : Prop := JumpRule .jf 6 (fun a => a = 0)

/-- R170: ARB, whole; the fault of a base outside `Int_W` is the spec's decision D2, stated in the rule. -/
def Obligations.ArbAddsToTheRelativeBase : Prop :=
  ∀ (ma : Mode) (s : State),
    (ma.wf = true → decode (Word.ofInt (canonicalWord 9 ma.digit 0 0)) = .ok (.arb ma) ∧ (Instr.arb ma).length = 2) ∧
    (∀ a, ReadsAs s 1 ma a → InIntW (s.rb.toInt + a) → s.pc.val + 2 ≤ Config.AMAX →
      ∃ t, exec (.arb ma) s = .next t ∧ t.rb.toInt = s.rb.toInt + a ∧ t.pc.val = s.pc.val + 2 ∧
        MemoryKept s t ∧ StatusKept s t ∧ InputKept s t ∧ t.out = s.out) ∧
    (∀ c, ReadFaults s 1 ma c → exec (.arb ma) s = .next (faultedWith s c)) ∧
    (∀ a, ReadsAs s 1 ma a → ¬InIntW (s.rb.toInt + a) → exec (.arb ma) s = .next (faultedWith s .overflow)) ∧
    (∀ a, ReadsAs s 1 ma a → Config.AMAX < s.pc.val + 2 → exec (.arb ma) s = .next (faultedWith s .overflow))

/-- R157: HALT, whole: every word that ends in 99 is HALT, it cannot fault, it leaves everything but `retval` and
`status` alone, and no step follows. -/
def Obligations.HaltReturnsTheWordAtZero : Prop :=
  ∀ s : State,
    (∀ w : Word, 0 ≤ w.toInt → w.toInt % 100 = 99 → decode w = .ok .halt) ∧ Instr.halt.length = 1 ∧
    ∃ t, exec .halt s = .next t ∧ t.retval.toInt = wordAt s 0 ∧ t.status = .halted ∧
      t.pc = s.pc ∧ t.rb = s.rb ∧ MemoryKept s t ∧ InputKept s t ∧ t.out = s.out ∧ t.fault = s.fault ∧
      ∀ u, step t ≠ .next u

/-! ### The step -/

/-- When running, a step fetches the word at `pc` and executes the instruction it decodes to; a word that
is no instruction raises `UnknownOpcode` with that `pc`.  Otherwise no step is taken. -/
def Obligations.StepRunsTheDecodedInstruction : Prop :=
  ∀ s : State,
    (∀ i, s.status = .running → decode (s.memRead s.pc) = .ok i → step s = exec i s) ∧
    (∀ op, s.status = .running → decode (s.memRead s.pc) = .error (.unknownOpcode op) →
      step s = .next (faultedWith s (.unknownOpcode op s.pc))) ∧
    (s.status = .halted → step s = .fault .haltedTakesNoStep) ∧
    (s.status = .faulted → step s = .fault .faultedTakesNoStep)

/-- A table word placed by `withFetchWord` is what the next step decodes and runs, from any state (log entries 5 and
8: the model's convention for placing a program). -/
def Obligations.PlacedWordIsRunNext : Prop :=
  ∀ (s : State) (nbits w : Nat) (i : Instr), decodeTableWord nbits w = some i →
    step (s.withFetchWord nbits w) = exec i (s.withFetchWord nbits w) ∧
      (s.withFetchWord nbits w).pc = s.pc ∧ (s.withFetchWord nbits w).rb = s.rb ∧
      InputKept s (s.withFetchWord nbits w) ∧ (s.withFetchWord nbits w).out = s.out

/-- R181: exactly the words that are negative, or whose two low digits are no opcode, raise `UnknownOpcode`,
with the recorded opcode and `pc`, and nothing else changes. -/
def Obligations.UnknownOpcodeIsRaisedAtDispatch : Prop :=
  ∀ s : State, s.status = .running →
    (0 ≤ wordAt s s.pc.val → wordAt s s.pc.val % 100 ∉ [1, 2, 3, 4, 5, 6, 7, 8, 9, 99] →
      step s = .next (faultedWith s (.unknownOpcode (wordAt s s.pc.val % 100) s.pc)) ∧
        (faultedWith s (.unknownOpcode (wordAt s s.pc.val % 100) s.pc)).faultRecord =
          { cause := 1, info1 := wordAt s s.pc.val % 100, info2 := s.pc.val }) ∧
    (wordAt s s.pc.val < 0 →
      step s = .next (faultedWith s (.unknownOpcode (-((-wordAt s s.pc.val) % 100)) s.pc)) ∧
        (faultedWith s (.unknownOpcode (-((-wordAt s s.pc.val) % 100)) s.pc)).faultRecord =
          { cause := 1, info1 := -((-wordAt s s.pc.val) % 100), info2 := s.pc.val }) ∧
    (0 ≤ wordAt s s.pc.val → wordAt s s.pc.val % 100 ∈ [1, 2, 3, 4, 5, 6, 7, 8, 9, 99] →
      ∀ op p, s.fault = none → step s ≠ .next (faultedWith s (.unknownOpcode op p)))

/-- R123: a running core always takes its step, and it is never refused; a core that has halted or faulted has no
successor. -/
def Obligations.ExactlyTheRunningStatesStep : Prop :=
  ∀ s : State, (s.status = .running ↔ ∃ t, step s = .next t) ∧ ∀ r, step s ≠ .refused r

/-- R120: a step that faults changes the status and the fault record and nothing else. -/
def Obligations.FaultsArePrecise : Prop :=
  ∀ s t : State, step s = .next t → t.status = .faulted → s.status = .running ∧ ∃ c, t = faultedWith s c

/-- The fault record: `(0, 0, 0)` unless the core is faulted, and after a fault the code and payload of its cause. -/
def Obligations.FaultRecordHoldsCodeAndPayload : Prop :=
  ∀ s : State,
    (s.Inv → s.status ≠ .faulted → s.faultRecord = { cause := 0, info1 := 0, info2 := 0 }) ∧
    (∀ op p, (faultedWith s (.unknownOpcode op p)).faultRecord = { cause := 1, info1 := op, info2 := p.val }) ∧
    (∀ d, (faultedWith s (.unknownParameterMode d)).faultRecord = { cause := 2, info1 := d, info2 := 0 }) ∧
    (faultedWith s .unsupportedWriteMode).faultRecord = { cause := 3, info1 := 0, info2 := 0 } ∧
    (faultedWith s .inputExhausted).faultRecord = { cause := 4, info1 := 0, info2 := 0 } ∧
    (faultedWith s .negativeAddress).faultRecord = { cause := 5, info1 := 0, info2 := 0 } ∧
    (faultedWith s .overflow).faultRecord = { cause := 6, info1 := 0, info2 := 0 }

/-- The table of faults: which instructions raise each cause and in which circumstances; HALT raises none. An address
is negative, or a taken jump's target is; an address sum, a result, or `pc + k` or `pc + n` is out of range. -/
def Obligations.EveryFaultHasItsCondition : Prop :=
  ∀ (s : State) (c : Cause), step s = .next (faultedWith s c) →
    match c with
    | .unknownOpcode op p => p = s.pc ∧ decode (s.memRead s.pc) = .error (.unknownOpcode op)
    | .unknownParameterMode d => 3 ≤ d ∧ d ≤ 9 ∧ ∃ i, Runs s i ∧ Mode.unknown d ∈ usedModes i
    | .unsupportedWriteMode => ∃ i, Runs s i ∧ HasTarget .immediate i
    | .inputExhausted => ∃ m, Runs s (.inp m) ∧ s.input.length ≤ s.inCursor
    | .negativeAddress =>
      ∃ i, Runs s i ∧ ((∃ k m, UsesParam i k m ∧ AddressFaults s k m .negativeAddress) ∨ JumpsBelowZero s i)
    | .overflow =>
      ∃ i, Runs s i ∧ i ≠ .halt ∧ ((∃ k m, UsesParam i k m ∧ AddressFaults s k m .overflow) ∨ ResultOutside s i ∨
        Config.AMAX < s.pc.val + i.length)

/-- R121: an instruction that completes advances `pc` by its length, unless it is a jump that is taken, which loads its
second operand and adds nothing; HALT does not advance it. -/
def Obligations.PcAdvancesByTheLengthOrJumps : Prop :=
  ∀ (s t : State) (i : Instr), Runs s i → step s = .next t → t.status ≠ .faulted →
    (¬IsJump i → i ≠ .halt → t.pc.val = s.pc.val + i.length) ∧ (i = .halt → t.pc = s.pc) ∧
    (∀ ma mb, i = .jt ma mb → ∃ a b, ReadsAs s 1 ma a ∧ ReadsAs s 2 mb b ∧
      (a ≠ 0 ∧ (t.pc.val : Int) = b ∨ a = 0 ∧ t.pc.val = s.pc.val + 3)) ∧
    (∀ ma mb, i = .jf ma mb → ∃ a b, ReadsAs s 1 ma a ∧ ReadsAs s 2 mb b ∧
      (a = 0 ∧ (t.pc.val : Int) = b ∨ a ≠ 0 ∧ t.pc.val = s.pc.val + 3))

/-- The "written by" column of the table of state elements: which instructions change each element, and that at most
one word of memory changes in a step. -/
def Obligations.EachElementHasItsWriters : Prop :=
  ∀ s t : State, step s = .next t →
    t.input = s.input ∧
    (t.rb ≠ s.rb → ∃ m, Runs s (.arb m)) ∧
    (t.out ≠ s.out → ∃ m, Runs s (.out m)) ∧
    (t.inCursor ≠ s.inCursor → ∃ m, Runs s (.inp m)) ∧
    (t.retval ≠ s.retval → Runs s .halt) ∧
    (t.status = .halted ↔ Runs s .halt) ∧
    (t.fault ≠ s.fault → t.status = .faulted) ∧
    (t.pc = s.pc ∨ t.status = .running) ∧
    (¬MemoryKept s t → ∃ m i, Runs s i ∧ HasTarget m i ∧ ∃ d, Targets s (usedModes i).length m d ∧
      (∀ a, a ≠ d → wordAt t a = wordAt s a) ∧ t.extent = max s.extent (d + 1))

/-! ### Invariants and runs -/

/-- The invariant holds right after reset. -/
def Obligations.InvariantHoldsAtReset : Prop := State.reset.Inv

/-- The invariant holds after every launch. -/
def Obligations.InvariantHoldsAfterLaunch : Prop :=
  ∀ (image input : List Int) (s : State), launch image input = .next s → s.Inv

/-- Every step keeps the invariant, from every state that has it. -/
def Obligations.EveryStepKeepsTheInvariant : Prop :=
  ∀ s t : State, s.Inv → step s = .next t → t.Inv

/-- Along any run (R30, R31, R55), from any state, `extent` and `in_cursor` never decrease, `INPUT` is fixed, `out` only
grows by appending, and a terminal state never changes again. -/
def Obligations.RunsAreMonotone : Prop :=
  ∀ (n : Nat) (s : State),
    s.extent ≤ (runFor n s).extent ∧ s.inCursor ≤ (runFor n s).inCursor ∧ (runFor n s).input = s.input ∧
      s.out <+: (runFor n s).out ∧ (s.status ≠ .running → runFor n s = s)

/-- The invariants of R37, which the spec marks derived: every state reachable from a launch satisfies the invariant, and between two states of one run the monotone
elements only grow. -/
def Obligations.EveryReachableStateIsInvariant : Prop :=
  ∀ (image input : List Int) (s : State) (n k : Nat), launch image input = .next s →
    (runFor n s).Inv ∧ (runFor n s).pc.val ≤ Config.AMAX ∧ InIntW (runFor n s).rb.toInt ∧
      (∀ a, InIntW (wordAt (runFor n s) a)) ∧
      (runFor n s).extent ≤ (runFor (n + k) s).extent ∧
      (runFor n s).inCursor ≤ (runFor (n + k) s).inCursor ∧
      (runFor n s).out <+: (runFor (n + k) s).out ∧
      ((runFor n s).status ≠ .running → runFor (n + k) s = runFor n s) ∧
      ((runFor n s).faultRecord.cause ≠ 0 ↔ (runFor n s).status = .faulted)

/-! ### What a step can depend on -/

/-- No instruction's result depends on `extent`: with any other extent the step is the same in everything else. -/
def Obligations.ExtentIsNotReadByAnyInstruction : Prop :=
  ∀ (s : State) (e : Nat), s.status = .running →
    ∃ t e', step s = .next t ∧ step { s with extent := e } = .next { t with extent := e' }

/-- No instruction reads `out`: a step appends the same values to any output sequence and is otherwise the same. -/
def Obligations.OutputIsNotReadByAnyInstruction : Prop :=
  ∀ (s : State) (o : List Word), s.status = .running →
    ∃ t new, step s = .next t ∧ t.out = s.out ++ new ∧ new.length ≤ 1 ∧
      step { s with out := o } = .next { t with out := o ++ new }

/-- The listed accesses (log entry 12: the model's view of the order of R66) are all there are: a memory that agrees on the words the step reads gives the same step; the
words it writes get the same values, and every other word keeps its own. -/
def Obligations.StepDependsOnlyOnTheWordsItReads : Prop :=
  ∀ (s : State) (m : Memory), s.status = .running →
    (∀ a : Addr, Access.Of.read a ∈ stepAccesses s → Memory.read m a.val = Memory.read s.mem a.val) →
      ∃ t u, step s = .next t ∧ step { s with mem := m } = .next u ∧ u = { t with mem := u.mem } ∧
        (∀ a : Addr, Access.Of.write a ∈ stepAccesses s → Memory.read u.mem a.val = Memory.read t.mem a.val) ∧
        (∀ a : Addr, Access.Of.write a ∉ stepAccesses s → Memory.read u.mem a.val = Memory.read m a.val)

/-- A step's reads come before its write (R66; log entry 12: the model's view of the accesses); a completed instruction makes the number of reads and writes of the
table; a step that faults writes nothing. -/
def Obligations.AccessesFollowTheTable : Prop :=
  ∀ s t : State, step s = .next t →
    ∃ reads writes : List Addr, stepAccesses s = reads.map .read ++ writes.map .write ∧
      reads.head? = some s.pc ∧
      (t.status = .faulted → writes = []) ∧
      (∀ i, Runs s i → t.status ≠ .faulted →
        reads.length = 1 + i.paramCount + operandReads i ∧ writes.length = wordsWritten i)

/-! ### Every word width -/

/-- At every width of at least 64 bits the range of words is the signed one, words are exactly its values, and it
contains the range of this hardware (R4, R5; the width is the spec's decision D1). -/
def Obligations.EveryWidthHasItsRange : Prop :=
  ∀ W : Nat, 64 ≤ W →
    (∀ v : Int, InIntW v W ↔ -2 ^ (W - 1) ≤ v ∧ v ≤ 2 ^ (W - 1) - 1) ∧ (Config.AMAX W : Int) = 2 ^ (W - 1) - 1 ∧
      (∀ w : Word W, InIntW w.toInt W) ∧ (∀ v : Int, InIntW v W → ∃ w : Word W, w.toInt = v) ∧
      ∀ v : Int, InIntW v → InIntW v W

/-- This hardware is the machine of 64-bit words: its dispatch, step, runs and launch are those with the width 64. -/
def Obligations.ThisHardwareHasTheWidth64 : Prop :=
  (∀ (i : Instr) (s : State.Of 64), exec i s = execAt i s) ∧ (∀ s : State.Of 64, step s = stepAt s) ∧
    (∀ (n : Nat) (s : State.Of 64), runFor n s = runAt n s) ∧
    (∀ image input : List Int, launch image input = launchAt 64 image input)

/-- The invariant at every width: every accepted launch has it and every step keeps it. -/
def Obligations.EveryWidthKeepsTheInvariant : Prop :=
  ∀ W : Nat, 64 ≤ W →
    (∀ (image input : List Int) (s : State.Of W), launchAt W image input = .next s → s.Inv) ∧
      ∀ s t : State.Of W, s.Inv → stepAt s = .next t → t.Inv

/-- A wider machine takes the same step: where the narrower one does not overflow, states of the same values go to
states of the same values. -/
def Obligations.WiderWordsTakeTheSameStep : Prop :=
  ∀ (V W : Nat) (s t : State.Of V) (s' : State.Of W), 64 ≤ V → V ≤ W → SameValues s s' → stepAt s = .next t →
    NoOverflow t → ∃ t', stepAt s' = .next t' ∧ SameValues t t'

/-- For any run that never leaves 64 bits, every admissible width gives the same run (the spec's decision D1): the same
image and input are accepted, and after the same number of steps every element has the same value. -/
def Obligations.EveryWidthGivesTheSameRun : Prop :=
  ∀ (W : Nat) (image input : List Int) (s : State) (n : Nat), 64 ≤ W → launch image input = .next s →
    NoOverflow (runFor n s) → ∃ s', launchAt W image input = .next s' ∧ SameValues (runFor n s) (runAt n s')

/-! ### Zero-extension -/

/-- R56: along any run, an address that the image does not hold and no step has written reads as 0; and in every state
with the invariant of reachable states, after a write its address reads the value, all addresses
between the old extent and it read as 0, and every other address reads as before. -/
def Obligations.UnwrittenWordsReadZeroAndWritesZeroExtend : Prop :=
  (∀ (image input : List Int) (s : State) (n : Nat) (a : Addr), launch image input = .next s → image.length ≤ a.val →
    (∀ k, k < n → ¬Writes (runFor k s) a.val) → (runFor n s).memRead a = 0) ∧
  ∀ (s : State) (a : Addr) (v : Word), s.Inv →
    (s.memWrite a v).memRead a = v ∧ (∀ b, s.extent ≤ b → b < a.val → wordAt (s.memWrite a v) b = 0) ∧
      ∀ b, b ≠ a.val → wordAt (s.memWrite a v) b = wordAt s b
end

