-- ==== Sys2Proof/Laws/State.lean ====
section
/-! SUPPORT. What each update of the state does to each field, so that no later proof unfolds a record update. -/

namespace Sys2Proof.Machine

variable {W : Nat}

variable (s : State.Of W)

@[simp] theorem State.Of.setPc_mem (n : Addr W) : (s.setPc n).mem = s.mem := rfl
@[simp] theorem State.Of.setPc_extent (n : Addr W) : (s.setPc n).extent = s.extent := rfl
@[simp] theorem State.Of.setPc_pc (n : Addr W) : (s.setPc n).pc = n := rfl
@[simp] theorem State.Of.setPc_rb (n : Addr W) : (s.setPc n).rb = s.rb := rfl
@[simp] theorem State.Of.setPc_status (n : Addr W) : (s.setPc n).status = s.status := rfl
@[simp] theorem State.Of.setPc_fault (n : Addr W) : (s.setPc n).fault = s.fault := rfl
@[simp] theorem State.Of.setPc_input (n : Addr W) : (s.setPc n).input = s.input := rfl
@[simp] theorem State.Of.setPc_inCursor (n : Addr W) : (s.setPc n).inCursor = s.inCursor := rfl
@[simp] theorem State.Of.setPc_out (n : Addr W) : (s.setPc n).out = s.out := rfl
@[simp] theorem State.Of.setPc_retval (n : Addr W) : (s.setPc n).retval = s.retval := rfl

@[simp] theorem State.Of.setRb_mem (v : Word W) : (s.setRb v).mem = s.mem := rfl
@[simp] theorem State.Of.setRb_extent (v : Word W) : (s.setRb v).extent = s.extent := rfl
@[simp] theorem State.Of.setRb_pc (v : Word W) : (s.setRb v).pc = s.pc := rfl
@[simp] theorem State.Of.setRb_rb (v : Word W) : (s.setRb v).rb = v := rfl
@[simp] theorem State.Of.setRb_status (v : Word W) : (s.setRb v).status = s.status := rfl
@[simp] theorem State.Of.setRb_fault (v : Word W) : (s.setRb v).fault = s.fault := rfl
@[simp] theorem State.Of.setRb_input (v : Word W) : (s.setRb v).input = s.input := rfl
@[simp] theorem State.Of.setRb_inCursor (v : Word W) : (s.setRb v).inCursor = s.inCursor := rfl
@[simp] theorem State.Of.setRb_out (v : Word W) : (s.setRb v).out = s.out := rfl
@[simp] theorem State.Of.setRb_retval (v : Word W) : (s.setRb v).retval = s.retval := rfl

@[simp] theorem State.Of.memWrite_mem (a : Addr W) (v : Word W) : (s.memWrite a v).mem = Memory.write s.mem a.val v := rfl
@[simp] theorem State.Of.memWrite_extent (a : Addr W) (v : Word W) : (s.memWrite a v).extent = if s.extent ≤ a.val then a.val + 1 else s.extent := rfl
@[simp] theorem State.Of.memWrite_pc (a : Addr W) (v : Word W) : (s.memWrite a v).pc = s.pc := rfl
@[simp] theorem State.Of.memWrite_rb (a : Addr W) (v : Word W) : (s.memWrite a v).rb = s.rb := rfl
@[simp] theorem State.Of.memWrite_status (a : Addr W) (v : Word W) : (s.memWrite a v).status = s.status := rfl
@[simp] theorem State.Of.memWrite_fault (a : Addr W) (v : Word W) : (s.memWrite a v).fault = s.fault := rfl
@[simp] theorem State.Of.memWrite_input (a : Addr W) (v : Word W) : (s.memWrite a v).input = s.input := rfl
@[simp] theorem State.Of.memWrite_inCursor (a : Addr W) (v : Word W) : (s.memWrite a v).inCursor = s.inCursor := rfl
@[simp] theorem State.Of.memWrite_out (a : Addr W) (v : Word W) : (s.memWrite a v).out = s.out := rfl
@[simp] theorem State.Of.memWrite_retval (a : Addr W) (v : Word W) : (s.memWrite a v).retval = s.retval := rfl

@[simp] theorem State.Of.pushOut_mem (v : Word W) : (s.pushOut v).mem = s.mem := rfl
@[simp] theorem State.Of.pushOut_extent (v : Word W) : (s.pushOut v).extent = s.extent := rfl
@[simp] theorem State.Of.pushOut_pc (v : Word W) : (s.pushOut v).pc = s.pc := rfl
@[simp] theorem State.Of.pushOut_rb (v : Word W) : (s.pushOut v).rb = s.rb := rfl
@[simp] theorem State.Of.pushOut_status (v : Word W) : (s.pushOut v).status = s.status := rfl
@[simp] theorem State.Of.pushOut_fault (v : Word W) : (s.pushOut v).fault = s.fault := rfl
@[simp] theorem State.Of.pushOut_input (v : Word W) : (s.pushOut v).input = s.input := rfl
@[simp] theorem State.Of.pushOut_inCursor (v : Word W) : (s.pushOut v).inCursor = s.inCursor := rfl
@[simp] theorem State.Of.pushOut_out (v : Word W) : (s.pushOut v).out = s.out ++ [v] := rfl
@[simp] theorem State.Of.pushOut_retval (v : Word W) : (s.pushOut v).retval = s.retval := rfl

@[simp] theorem State.Of.consumeInput_mem : (s.consumeInput).mem = s.mem := rfl
@[simp] theorem State.Of.consumeInput_extent : (s.consumeInput).extent = s.extent := rfl
@[simp] theorem State.Of.consumeInput_pc : (s.consumeInput).pc = s.pc := rfl
@[simp] theorem State.Of.consumeInput_rb : (s.consumeInput).rb = s.rb := rfl
@[simp] theorem State.Of.consumeInput_status : (s.consumeInput).status = s.status := rfl
@[simp] theorem State.Of.consumeInput_fault : (s.consumeInput).fault = s.fault := rfl
@[simp] theorem State.Of.consumeInput_input : (s.consumeInput).input = s.input := rfl
@[simp] theorem State.Of.consumeInput_inCursor : (s.consumeInput).inCursor = s.inCursor + 1 := rfl
@[simp] theorem State.Of.consumeInput_out : (s.consumeInput).out = s.out := rfl
@[simp] theorem State.Of.consumeInput_retval : (s.consumeInput).retval = s.retval := rfl

@[simp] theorem State.Of.raise_mem (c : Cause.Of W) : (s.raise c).mem = s.mem := rfl
@[simp] theorem State.Of.raise_extent (c : Cause.Of W) : (s.raise c).extent = s.extent := rfl
@[simp] theorem State.Of.raise_pc (c : Cause.Of W) : (s.raise c).pc = s.pc := rfl
@[simp] theorem State.Of.raise_rb (c : Cause.Of W) : (s.raise c).rb = s.rb := rfl
@[simp] theorem State.Of.raise_status (c : Cause.Of W) : (s.raise c).status = .faulted := rfl
@[simp] theorem State.Of.raise_fault (c : Cause.Of W) : (s.raise c).fault = some c := rfl
@[simp] theorem State.Of.raise_input (c : Cause.Of W) : (s.raise c).input = s.input := rfl
@[simp] theorem State.Of.raise_inCursor (c : Cause.Of W) : (s.raise c).inCursor = s.inCursor := rfl
@[simp] theorem State.Of.raise_out (c : Cause.Of W) : (s.raise c).out = s.out := rfl
@[simp] theorem State.Of.raise_retval (c : Cause.Of W) : (s.raise c).retval = s.retval := rfl

@[simp] theorem State.Of.halt_mem : (s.halt).mem = s.mem := rfl
@[simp] theorem State.Of.halt_extent : (s.halt).extent = s.extent := rfl
@[simp] theorem State.Of.halt_pc : (s.halt).pc = s.pc := rfl
@[simp] theorem State.Of.halt_rb : (s.halt).rb = s.rb := rfl
@[simp] theorem State.Of.halt_status : (s.halt).status = .halted := rfl
@[simp] theorem State.Of.halt_fault : (s.halt).fault = s.fault := rfl
@[simp] theorem State.Of.halt_input : (s.halt).input = s.input := rfl
@[simp] theorem State.Of.halt_inCursor : (s.halt).inCursor = s.inCursor := rfl
@[simp] theorem State.Of.halt_out : (s.halt).out = s.out := rfl
@[simp] theorem State.Of.halt_retval : (s.halt).retval = s.memRead 0 := rfl

@[simp] theorem State.Of.resetAt_mem : (State.Of.resetAt W).mem = [] := rfl
@[simp] theorem State.Of.resetAt_extent : (State.Of.resetAt W).extent = 0 := rfl
@[simp] theorem State.Of.resetAt_pc : (State.Of.resetAt W).pc = 0 := rfl
@[simp] theorem State.Of.resetAt_rb : (State.Of.resetAt W).rb = 0 := rfl
@[simp] theorem State.Of.resetAt_status : (State.Of.resetAt W).status = .running := rfl
@[simp] theorem State.Of.resetAt_fault : (State.Of.resetAt W).fault = none := rfl
@[simp] theorem State.Of.resetAt_input : (State.Of.resetAt W).input = [] := rfl
@[simp] theorem State.Of.resetAt_inCursor : (State.Of.resetAt W).inCursor = 0 := rfl
@[simp] theorem State.Of.resetAt_out : (State.Of.resetAt W).out = [] := rfl
@[simp] theorem State.Of.resetAt_retval : (State.Of.resetAt W).retval = 0 := rfl

@[simp] theorem State.reset_eq : State.reset = State.Of.resetAt Config.W := rfl

end Sys2Proof.Machine
end

