-- ==== Sys2Proof/Laws/Memory.lean ====
section
/-! SUPPORT. The sparse store: read after write, the canonical form, and the image (spec/20_memory.md). -/

namespace Sys2Proof.Machine

variable {W : Nat}

/-! ### Reading after erasing, inserting and writing -/

theorem Memory.read_erase_self (m : Memory W) (a : Nat) : Memory.read (Memory.erase m a) a = 0 := by
  induction m with
  | nil => rfl
  | cons e rest ih =>
    obtain ⟨k, v⟩ := e
    by_cases h : k = a <;> simp [Memory.erase, Memory.read, h, ih]

theorem Memory.read_erase_ne (m : Memory W) {a b : Nat} (hb : b ≠ a) :
    Memory.read (Memory.erase m a) b = Memory.read m b := by
  induction m with
  | nil => rfl
  | cons e rest ih =>
    obtain ⟨k, v⟩ := e
    by_cases h : k = a
    · have hk : k ≠ b := by omega
      simp [Memory.erase, Memory.read, h, ih]
      intro h'
      omega
    · simp [Memory.erase, Memory.read, h, ih]

theorem Memory.read_insert_ne (m : Memory W) {a b : Nat} (v : Word W) (hb : b ≠ a) :
    Memory.read (Memory.insert m a v) b = Memory.read m b := by
  induction m with
  | nil => simp [Memory.insert, Memory.read, Ne.symm hb]
  | cons e rest ih =>
    obtain ⟨k, w⟩ := e
    by_cases h : k < a
    · simp [Memory.insert, Memory.read, h, ih]
    · simp [Memory.insert, Memory.read, h, Ne.symm hb]

theorem Memory.read_insert_erase_self (m : Memory W) (a : Nat) (v : Word W) :
    Memory.read (Memory.insert (Memory.erase m a) a v) a = v := by
  induction m with
  | nil => simp [Memory.erase, Memory.insert, Memory.read]
  | cons e rest ih =>
    obtain ⟨k, w⟩ := e
    by_cases h : k = a
    · simpa [Memory.erase, h] using ih
    · by_cases hlt : k < a
      · simp [Memory.erase, Memory.insert, Memory.read, h, hlt, ih]
      · simp [Memory.erase, Memory.insert, Memory.read, h, hlt]

theorem Memory.write_zero (m : Memory W) (a : Nat) : Memory.write m a 0 = Memory.erase m a := if_pos rfl

theorem Memory.write_of_ne (m : Memory W) (a : Nat) {v : Word W} (h : v ≠ 0) :
    Memory.write m a v = Memory.insert (Memory.erase m a) a v := if_neg h

/-- A read after a write to the same address gives the value written. -/
@[simp] theorem Memory.read_write_self (m : Memory W) (a : Nat) (v : Word W) :
    Memory.read (Memory.write m a v) a = v := by
  by_cases h : v = 0
  · rw [h, Memory.write_zero, Memory.read_erase_self]
  · rw [Memory.write_of_ne m a h, Memory.read_insert_erase_self]

/-- A write leaves every other address alone. -/
theorem Memory.read_write_ne (m : Memory W) {a b : Nat} (v : Word W) (hb : b ≠ a) :
    Memory.read (Memory.write m a v) b = Memory.read m b := by
  by_cases h : v = 0
  · rw [h, Memory.write_zero, Memory.read_erase_ne m hb]
  · rw [Memory.write_of_ne m a h, Memory.read_insert_ne _ v hb, Memory.read_erase_ne m hb]

theorem Memory.read_write (m : Memory W) (a b : Nat) (v : Word W) :
    Memory.read (Memory.write m a v) b = if b = a then v else Memory.read m b := by
  by_cases h : b = a
  · subst h; simp
  · simp [h, Memory.read_write_ne m v h]

/-! ### The canonical form -/

/-- What the canonical form says of a store with a first entry. -/
theorem Memory.wf_cons {a : Nat} {v : Word W} {rest : Memory W} :
    Memory.wf ((a, v) :: rest) = true ↔
      a ≤ Config.AMAX W ∧ v ≠ 0 ∧ (∀ e ∈ rest, a < e.1) ∧ Memory.wf rest = true := by
  simp [Memory.wf, and_assoc]

/-- An address that is not listed reads as 0 (R53, R56). -/
theorem Memory.read_unlisted {m : Memory W} {a : Nat} (h : ∀ e ∈ m, e.1 ≠ a) : Memory.read m a = 0 := by
  induction m with
  | nil => rfl
  | cons e rest ih =>
    obtain ⟨k, v⟩ := e
    rw [Memory.read, if_neg (h (k, v) List.mem_cons_self)]
    exact ih fun e he => h e (List.mem_cons_of_mem _ he)

/-- An address below every listed one reads as 0. -/
theorem Memory.read_eq_zero {m : Memory W} {a : Nat} (h : ∀ e ∈ m, a < e.1) : Memory.read m a = 0 := by
  exact Memory.read_unlisted fun e he => Nat.ne_of_gt (h e he)

theorem Memory.mem_erase {m : Memory W} {a : Nat} {e : Nat × Word W} (h : e ∈ Memory.erase m a) : e ∈ m ∧ e.1 ≠ a := by
  induction m with
  | nil => simp [Memory.erase] at h
  | cons x rest ih =>
    obtain ⟨k, v⟩ := x
    by_cases hk : k = a
    · simp only [Memory.erase, hk, if_true] at h
      exact ⟨by simp [(ih h).1], (ih h).2⟩
    · simp only [Memory.erase, hk, if_false, List.mem_cons] at h
      rcases h with rfl | h
      · exact ⟨by simp, hk⟩
      · exact ⟨by simp [(ih h).1], (ih h).2⟩

theorem Memory.mem_insert {m : Memory W} {a : Nat} {v : Word W} {e : Nat × Word W}
    (h : e ∈ Memory.insert m a v) : e ∈ m ∨ e = (a, v) := by
  induction m with
  | nil => simpa [Memory.insert] using h
  | cons x rest ih =>
    obtain ⟨k, w⟩ := x
    by_cases hk : k < a
    · simp only [Memory.insert, hk, if_true, List.mem_cons] at h
      rcases h with rfl | h
      · simp
      · rcases ih h with h | h <;> simp [h]
    · simp only [Memory.insert, hk, if_false, List.mem_cons] at h
      rcases h with rfl | rfl | h <;> simp [*]

theorem Memory.erase_wf {m : Memory W} (a : Nat) (h : Memory.wf m = true) : Memory.wf (Memory.erase m a) = true := by
  induction m with
  | nil => rfl
  | cons x rest ih =>
    obtain ⟨k, v⟩ := x
    obtain ⟨h1, h2, h3, h4⟩ := Memory.wf_cons.1 h
    by_cases hk : k = a
    · simpa [Memory.erase, hk] using ih h4
    · simp only [Memory.erase, hk, if_false]
      exact Memory.wf_cons.2 ⟨h1, h2, fun e he => h3 e (Memory.mem_erase he).1, ih h4⟩

theorem Memory.insert_wf {m : Memory W} {a : Nat} {v : Word W} (ha : a ≤ Config.AMAX W) (hv : v ≠ 0)
    (hne : ∀ e ∈ m, e.1 ≠ a) (h : Memory.wf m = true) : Memory.wf (Memory.insert m a v) = true := by
  induction m with
  | nil => simpa [Memory.insert] using Memory.wf_cons.2 ⟨ha, hv, by simp, rfl⟩
  | cons x rest ih =>
    obtain ⟨k, w⟩ := x
    obtain ⟨h1, h2, h3, h4⟩ := Memory.wf_cons.1 h
    have hka : k ≠ a := hne (k, w) (by simp)
    by_cases hk : k < a
    · simp only [Memory.insert, hk, if_true]
      refine Memory.wf_cons.2 ⟨h1, h2, fun e he => ?_, ih (fun e he => hne e (by simp [he])) h4⟩
      rcases Memory.mem_insert he with he | rfl
      · exact h3 e he
      · exact hk
    · simp only [Memory.insert, hk, if_false]
      refine Memory.wf_cons.2 ⟨ha, hv, fun e he => ?_, h⟩
      rcases List.mem_cons.1 he with rfl | he
      · show a < k
        omega
      · have := h3 e he
        omega

/-- Every write keeps the canonical form. -/
theorem Memory.write_wf {m : Memory W} {a : Nat} (v : Word W) (ha : a ≤ Config.AMAX W) (h : Memory.wf m = true) :
    Memory.wf (Memory.write m a v) = true := by
  by_cases hv : v = 0
  · rw [hv, Memory.write_zero]
    exact Memory.erase_wf a h
  · rw [Memory.write_of_ne m a hv]
    exact Memory.insert_wf ha hv (fun e he => (Memory.mem_erase he).2) (Memory.erase_wf a h)

theorem State.Of.memWrite_wf {s : State.Of W} (a : Addr W) (v : Word W) (h : Memory.wf s.mem = true) :
    Memory.wf (s.memWrite a v).mem = true := Memory.write_wf v (Nat.le_of_lt_succ a.isLt) h

/-- The memory right after reset has the canonical form. -/
theorem State.reset_memWf : Memory.wf State.reset.mem = true := rfl

/-! ### The state's two memory operations -/

@[simp] theorem State.Of.memRead_memWrite_self (s : State.Of W) (a : Addr W) (v : Word W) :
    (s.memWrite a v).memRead a = v := by simp [State.Of.memRead]

theorem State.Of.memRead_memWrite_ne (s : State.Of W) {a b : Addr W} (v : Word W) (h : b ≠ a) :
    (s.memWrite a v).memRead b = s.memRead b :=
  Memory.read_write_ne _ v fun h' => h (Fin.ext h')

/-- Zero-extension (R56): if nothing beyond `extent` is written, a write leaves every address between the old `extent`
and its own reading as 0, and every address but its own reading as before. -/
theorem State.Of.memWrite_zero_extends (s : State.Of W) (a : Addr W) (v : Word W)
    (h : ∀ b, s.extent ≤ b → Memory.read s.mem b = 0) :
    (∀ b, s.extent ≤ b → b < a.val → Memory.read (s.memWrite a v).mem b = 0) ∧
      ∀ b, b ≠ a.val → Memory.read (s.memWrite a v).mem b = Memory.read s.mem b :=
  have other : ∀ b, b ≠ a.val → Memory.read (s.memWrite a v).mem b = Memory.read s.mem b :=
    fun _ hb => Memory.read_write_ne _ v hb
  ⟨fun b hb hlt => (other b (Nat.ne_of_lt hlt)).trans (h b hb), other⟩

/-- A write never shrinks memory (R55). -/
theorem State.Of.extent_le_memWrite (s : State.Of W) (a : Addr W) (v : Word W) : s.extent ≤ (s.memWrite a v).extent := by
  simp only [State.Of.memWrite_extent]
  split <;> omega

/-- After a write the address lies below `extent` (R54). -/
theorem State.Of.lt_extent_memWrite (s : State.Of W) (a : Addr W) (v : Word W) : a.val < (s.memWrite a v).extent := by
  simp only [State.Of.memWrite_extent]
  split <;> omega

/-! ### The image -/

theorem Memory.ofImage_ge {image : List (Word W)} {base : Nat} {e : Nat × Word W}
    (h : e ∈ Memory.ofImage base image) : base ≤ e.1 := by
  induction image generalizing base with
  | nil => simp [Memory.ofImage] at h
  | cons v vs ih =>
    by_cases hv : v = 0
    · simp only [Memory.ofImage, hv, if_true] at h
      have := ih h
      omega
    · simp only [Memory.ofImage, hv, if_false, List.mem_cons] at h
      rcases h with rfl | h
      · exact Nat.le_refl _
      · have := ih h
        omega

/-- An image reads back word for word, and as 0 beyond its end (R210). -/
theorem Memory.read_ofImage (image : List (Word W)) (base i : Nat) :
    Memory.read (Memory.ofImage base image) (base + i) = (image[i]?).getD 0 := by
  induction image generalizing base i with
  | nil => rfl
  | cons v vs ih =>
    cases i with
    | zero =>
      by_cases hv : v = 0
      · simp only [Memory.ofImage, hv, if_true, Nat.add_zero, List.getElem?_cons_zero, Option.getD_some]
        exact Memory.read_eq_zero fun e he => Memory.ofImage_ge he
      · simp only [Memory.ofImage, hv, if_false, Memory.read, Nat.add_zero, if_true, List.getElem?_cons_zero,
          Option.getD_some]
    | succ j =>
      have hj : base + (j + 1) = base + 1 + j := by omega
      by_cases hv : v = 0
      · simp only [Memory.ofImage, hv, if_true, List.getElem?_cons_succ]
        rw [hj, ih]
      · have hne : base ≠ base + (j + 1) := by omega
        simp only [Memory.ofImage, hv, if_false, Memory.read, hne, List.getElem?_cons_succ]
        rw [hj, ih]

theorem Memory.ofImage_wf (image : List (Word W)) (base : Nat) (h : base + image.length ≤ Config.AMAX W + 1) :
    Memory.wf (Memory.ofImage base image) = true := by
  induction image generalizing base with
  | nil => rfl
  | cons v vs ih =>
    simp only [List.length_cons] at h
    have hrest := ih (base + 1) (by omega)
    by_cases hv : v = 0
    · simpa [Memory.ofImage, hv] using hrest
    · simp only [Memory.ofImage, hv, if_false]
      refine Memory.wf_cons.2 ⟨by omega, hv, fun e he => ?_, hrest⟩
      exact Memory.ofImage_ge he

@[simp] theorem State.Of.boot_mem (image input : List (Word W)) : (State.Of.boot image input).mem = Memory.ofImage 0 image := rfl
@[simp] theorem State.Of.boot_extent (image input : List (Word W)) : (State.Of.boot image input).extent = image.length := rfl
@[simp] theorem State.Of.boot_pc (image input : List (Word W)) : (State.Of.boot image input).pc = 0 := rfl
@[simp] theorem State.Of.boot_rb (image input : List (Word W)) : (State.Of.boot image input).rb = 0 := rfl
@[simp] theorem State.Of.boot_status (image input : List (Word W)) : (State.Of.boot image input).status = .running := rfl
@[simp] theorem State.Of.boot_fault (image input : List (Word W)) : (State.Of.boot image input).fault = none := rfl
@[simp] theorem State.Of.boot_input (image input : List (Word W)) : (State.Of.boot image input).input = input := rfl
@[simp] theorem State.Of.boot_inCursor (image input : List (Word W)) : (State.Of.boot image input).inCursor = 0 := rfl
@[simp] theorem State.Of.boot_out (image input : List (Word W)) : (State.Of.boot image input).out = [] := rfl
@[simp] theorem State.Of.boot_retval (image input : List (Word W)) : (State.Of.boot image input).retval = 0 := rfl

/-- Launching refuses exactly when a value is outside `Int_W` or the image is too long (R211). -/
theorem firstOutside_eq_none {vs : List Int} : firstOutside W vs = none ↔ ∀ v ∈ vs, InIntW v W := by
  induction vs with
  | nil => simp [firstOutside]
  | cons v vs ih => by_cases h : InIntW v W <;> simp [firstOutside, h, ih]

end Sys2Proof.Machine
end

