-- ==== Sys2Proof/Laws/Ops.lean ====
section
/-! SUPPORT. What each shared operation can answer, said once. -/

namespace Sys2Proof.Machine

variable {W : Nat}

/-! ### Stages that may fault -/

theorem bind_eq_ok {α β : Type} {x : Except (Cause.Of W) α} {f : α → Except (Cause.Of W) β} {r : β} :
    (x >>= f) = .ok r ↔ ∃ a, x = .ok a ∧ f a = .ok r := by
  cases x with
  | error c => constructor <;> intro h <;> simp_all [bind, Except.bind]
  | ok a => simp [bind, Except.bind]

theorem bind_eq_error {α β : Type} {x : Except (Cause.Of W) α} {f : α → Except (Cause.Of W) β} {c : Cause.Of W} :
    (x >>= f) = .error c ↔ x = .error c ∨ ∃ a, x = .ok a ∧ f a = .error c := by
  cases x with
  | error c' => simp [bind, Except.bind]
  | ok a => simp [bind, Except.bind]

@[simp] theorem ok_bind {α β : Type} (a : α) (f : α → Except (Cause.Of W) β) : (Except.ok a >>= f) = f a := rfl

@[simp] theorem error_bind {α β : Type} (c : Cause.Of W) (f : α → Except (Cause.Of W) β) :
    (Except.error c >>= f) = .error c := rfl

/-- An instruction that ends through `commit` answers a next state: its own, or the state before it with the
fault taken. -/
theorem commit_eq_next {s t : State.Of W} {r : Except (Cause.Of W) (State.Of W)} :
    commit s r = .next t ↔ r = .ok t ∨ ∃ c, r = .error c ∧ t = s.raise c := by
  cases r with
  | error c => simp [commit, eq_comm]
  | ok u => simp [commit]

theorem commit_ok (s t : State.Of W) : commit s (.ok t) = .next t := rfl

theorem commit_error (s : State.Of W) (c : Cause.Of W) : commit s (.error c) = .next (s.raise c) := rfl

/-! ### Range checks -/

/-- A value in `Int_W` is the value of its word; a word of no bits has no value but 0, so the width is not 0. -/
theorem toInt_ofInt [NeZero W] {v : Int} (h : InIntW v W) : (Word.ofInt v : Word W).toInt = v := by
  obtain ⟨h1, h2⟩ := h
  have hp := Nat.two_pow_pos (W - 1)
  simp only [Config.INT_MIN, Config.INT_MAX, Config.AMAX] at h1 h2
  push_cast [Nat.cast_sub hp] at h1 h2
  exact BitVec.toInt_ofInt_eq_self (NeZero.pos W) (by omega) (by omega)

theorem chk_eq_ok [NeZero W] {v : Int} {w : Word W} : chk v = .ok w ↔ InIntW v W ∧ w.toInt = v := by
  unfold chk
  by_cases h : InIntW v W
  · simp only [h, if_true, Except.ok.injEq, true_and]
    constructor
    · rintro rfl
      exact toInt_ofInt h
    · intro hw
      exact BitVec.eq_of_toInt_eq ((toInt_ofInt h).trans hw.symm)
  · simp only [h, if_false]
    constructor <;> intro h' <;> simp_all

theorem chk_eq_error {v : Int} {c : Cause.Of W} : chk v = .error c ↔ ¬InIntW v W ∧ c = .overflow := by
  unfold chk
  by_cases h : InIntW v W
  · simp only [h, if_true]
    constructor <;> intro h' <;> simp_all
  · simp only [h, if_false, Except.error.injEq, not_false_eq_true, true_and]
    exact eq_comm

theorem chkPc_eq_ok {s : State.Of W} {n : Nat} {p : Addr W} : chkPc s n = .ok p ↔ p.val = s.pc.val + n := by
  unfold chkPc
  by_cases h : s.pc.val + n < Config.AMAX W + 1
  · simp only [h, dif_pos, Except.ok.injEq, Fin.ext_iff]
    exact eq_comm
  · simp only [h, dif_neg, not_false_eq_true]
    constructor
    · intro h'
      simp at h'
    · intro h'
      have := p.isLt
      omega

theorem chkPc_eq_error {s : State.Of W} {n : Nat} {c : Cause.Of W} :
    chkPc s n = .error c ↔ Config.AMAX W < s.pc.val + n ∧ c = .overflow := by
  unfold chkPc
  by_cases h : s.pc.val + n < Config.AMAX W + 1
  · simp only [h, dif_pos]
    constructor
    · intro h'
      simp at h'
    · intro h'
      omega
  · simp only [h, dif_neg, not_false_eq_true, Except.error.injEq]
    constructor
    · rintro rfl
      exact ⟨by omega, rfl⟩
    · rintro ⟨_, rfl⟩
      rfl

theorem addrOf_eq_ok {w : Word W} {a : Addr W} : addrOf w = .ok a ↔ w.toInt = (a.val : Int) := by
  unfold addrOf
  by_cases h : w.toInt < 0
  · simp only [h, if_true]
    constructor
    · intro h'
      simp at h'
    · intro h'
      omega
  · simp only [h, if_false, Except.ok.injEq, Fin.ext_iff]
    omega

theorem addrOf_eq_error {w : Word W} {c : Cause.Of W} : addrOf w = .error c ↔ w.toInt < 0 ∧ c = .negativeAddress := by
  unfold addrOf
  by_cases h : w.toInt < 0
  · simp only [h, if_true, Except.error.injEq, true_and]
    exact eq_comm
  · simp [h]

/-! ### Control and input -/

theorem fallThrough_eq_ok {s t : State.Of W} {n : Nat} :
    fallThrough s n = .ok t ↔ ∃ p : Addr W, p.val = s.pc.val + n ∧ t = s.setPc p := by
  simp [fallThrough, bind_eq_ok, chkPc_eq_ok, eq_comm (a := t)]

theorem fallThrough_eq_error {s : State.Of W} {n : Nat} {c : Cause.Of W} :
    fallThrough s n = .error c ↔ Config.AMAX W < s.pc.val + n ∧ c = .overflow := by
  simp [fallThrough, bind_eq_error, chkPc_eq_error]

theorem jumpTo_eq_ok {s t : State.Of W} {b : Word W} :
    jumpTo s b = .ok t ↔ ∃ p : Addr W, b.toInt = (p.val : Int) ∧ t = s.setPc p := by
  simp [jumpTo, bind_eq_ok, addrOf_eq_ok, eq_comm (a := t)]

theorem jumpTo_eq_error {s : State.Of W} {b : Word W} {c : Cause.Of W} :
    jumpTo s b = .error c ↔ b.toInt < 0 ∧ c = .negativeAddress := by
  simp [jumpTo, bind_eq_error, addrOf_eq_error]

theorem nextInput_eq_ok {s : State.Of W} {v : Word W} : nextInput s = .ok v ↔ s.input[s.inCursor]? = some v := by
  unfold nextInput
  cases s.input[s.inCursor]? <;> simp

theorem nextInput_eq_error {s : State.Of W} {c : Cause.Of W} :
    nextInput s = .error c ↔ s.input.length ≤ s.inCursor ∧ c = .inputExhausted := by
  unfold nextInput
  cases h : s.input[s.inCursor]? with
  | none => simpa [List.getElem?_eq_none_iff.1 h] using eq_comm
  | some v =>
    have := (List.getElem?_eq_some_iff.1 h).1
    simp only [false_iff, not_and, reduceCtorEq]
    omega

end Sys2Proof.Machine
end

