-- ==== Sys2Proof/Laws/Operands.lean ====
section
/-! SUPPORT. What fetching and resolving a parameter can answer (spec/40_step_and_operands.md R113 to R117). -/

namespace Sys2Proof.Machine

variable {W : Nat}

variable {s : State.Of W} {k : Nat} {w : Word W} {c : Cause.Of W}

theorem raw_eq_ok : raw s k = .ok w ↔ ∃ p : Addr W, p.val = s.pc.val + k ∧ w = s.memRead p := by
  simp [raw, bind_eq_ok, chkPc_eq_ok, eq_comm (a := w)]

theorem raw_eq_error : raw s k = .error c ↔ Config.AMAX W < s.pc.val + k ∧ c = .overflow := by
  simp [raw, bind_eq_error, chkPc_eq_error]

theorem ea_position_eq_ok {a : Addr W} : ea s .position w = .ok a ↔ w.toInt = (a.val : Int) := addrOf_eq_ok

theorem ea_position_eq_error : ea s .position w = .error c ↔ w.toInt < 0 ∧ c = .negativeAddress := addrOf_eq_error

theorem ea_relative_eq_ok [NeZero W] {a : Addr W} :
    ea s .relative w = .ok a ↔ InIntW (w.toInt + s.rb.toInt) W ∧ w.toInt + s.rb.toInt = (a.val : Int) := by
  simp only [ea, bind_eq_ok, chk_eq_ok, addrOf_eq_ok]
  constructor
  · rintro ⟨x, ⟨h1, h2⟩, h3⟩
    exact ⟨h1, h2 ▸ h3⟩
  · rintro ⟨h1, h2⟩
    exact ⟨Word.ofInt _, ⟨h1, toInt_ofInt h1⟩, (toInt_ofInt h1).trans h2⟩

theorem ea_relative_eq_error [NeZero W] :
    ea s .relative w = .error c ↔
      (¬InIntW (w.toInt + s.rb.toInt) W ∧ c = .overflow) ∨
      (InIntW (w.toInt + s.rb.toInt) W ∧ w.toInt + s.rb.toInt < 0 ∧ c = .negativeAddress) := by
  simp only [ea, bind_eq_error, chk_eq_ok, chk_eq_error, addrOf_eq_error]
  constructor
  · rintro (h | ⟨x, ⟨h1, h2⟩, h3, h4⟩)
    · exact .inl h
    · exact .inr ⟨h1, h2 ▸ h3, h4⟩
  · rintro (h | ⟨h1, h2, h3⟩)
    · exact .inl h
    · exact .inr ⟨Word.ofInt _, ⟨h1, toInt_ofInt h1⟩, by rw [toInt_ofInt h1]; exact h2, h3⟩

theorem paramAddr_eq_ok {m : AddrMode} {a : Addr W} :
    paramAddr s k m = .ok a ↔ ∃ r, raw s k = .ok r ∧ ea s m r = .ok a := bind_eq_ok

theorem paramAddr_eq_error {m : AddrMode} :
    paramAddr s k m = .error c ↔ raw s k = .error c ∨ ∃ r, raw s k = .ok r ∧ ea s m r = .error c := bind_eq_error

theorem readVia_eq_ok {m : AddrMode} : readVia s k m = .ok w ↔ ∃ a, paramAddr s k m = .ok a ∧ w = s.memRead a := by
  simp [readVia, bind_eq_ok, eq_comm (a := w)]

theorem readVia_eq_error {m : AddrMode} : readVia s k m = .error c ↔ paramAddr s k m = .error c := by
  simp [readVia, bind_eq_error]

@[simp] theorem rd_immediate : rd s k .immediate = raw s k := rfl
@[simp] theorem rd_position : rd s k .position = readVia s k .position := rfl
@[simp] theorem rd_relative : rd s k .relative = readVia s k .relative := rfl
@[simp] theorem rd_unknown (d : Nat) : rd s k (.unknown d) = .error (.unknownParameterMode d) := rfl
@[simp] theorem wr_immediate : wr s k .immediate = .error .unsupportedWriteMode := rfl
@[simp] theorem wr_position : wr s k .position = paramAddr s k .position := rfl
@[simp] theorem wr_relative : wr s k .relative = paramAddr s k .relative := rfl
@[simp] theorem wr_unknown (d : Nat) : wr s k (.unknown d) = .error (.unknownParameterMode d) := rfl

end Sys2Proof.Machine
end

