-- ==== Sys2Proof/Laws/Accesses.lean ====
section
/-! SUPPORT. The accesses of one parameter are reads, and how many (spec/20_memory.md R66). -/

namespace Sys2Proof.Machine

variable {W : Nat}

@[simp] theorem afterOk_ok {α : Type} (a : α) (f : α → List (Access.Of W)) : afterOk (.ok a) f = f a := rfl
@[simp] theorem afterOk_error {α : Type} (c : Cause.Of W) (f : α → List (Access.Of W)) : afterOk (.error c) f = [] := rfl

/-- A raw parameter is one read. -/
theorem rawAccess_reads (s : State.Of W) (k : Nat) :
    ∃ r : List (Addr W), rawAccess s k = r.map .read ∧ ∀ w, raw s k = .ok w → r.length = 1 := by
  unfold rawAccess
  cases h : chkPc s k with
  | ok p => exact ⟨[p], rfl, fun _ _ => rfl⟩
  | error c => exact ⟨[], rfl, fun w hw => by simp [raw, h] at hw⟩

/-- A read parameter is one read when Immediate and two otherwise. -/
theorem rdAccesses_reads (s : State.Of W) (k : Nat) (m : Mode) :
    ∃ r : List (Addr W), rdAccesses s k m = r.map .read ∧
      ∀ w, rd s k m = .ok w → r.length = 1 + (if m = .immediate then 0 else 1) := by
  obtain ⟨r, hr, hl⟩ := rawAccess_reads s k
  have via : ∀ am, ∃ r : List (Addr W),
      (rawAccess s k ++ afterOk (paramAddr s k am) fun a => [.read a]) = r.map .read ∧
        ∀ w, readVia s k am = .ok w → r.length = 2 := by
    intro am
    cases h : paramAddr s k am with
    | ok a =>
      refine ⟨r ++ [a], by simp [hr], fun w _ => ?_⟩
      obtain ⟨x, hx, -⟩ := paramAddr_eq_ok.1 h
      simp [hl x hx]
    | error c =>
      refine ⟨r, by simp [hr], fun w hw => ?_⟩
      obtain ⟨a, ha, -⟩ := readVia_eq_ok.1 hw
      rw [h] at ha
      cases ha
  cases m with
  | unknown d => exact ⟨[], rfl, fun w h => by cases h⟩
  | immediate => exact ⟨r, hr, fun w h => by simpa using hl w h⟩
  | position => simpa [rdAccesses] using via .position
  | relative => simpa [rdAccesses] using via .relative

/-- A write target is one read. -/
theorem wrAccesses_reads (s : State.Of W) (k : Nat) (m : Mode) :
    ∃ r : List (Addr W), wrAccesses s k m = r.map .read ∧ ∀ a, wr s k m = .ok a → r.length = 1 := by
  obtain ⟨r, hr, hl⟩ := rawAccess_reads s k
  cases m with
  | unknown d => exact ⟨[], rfl, fun w h => by cases h⟩
  | immediate => exact ⟨[], rfl, fun w h => by cases h⟩
  | position | relative =>
    refine ⟨r, hr, fun a h => ?_⟩
    obtain ⟨x, hx, -⟩ := paramAddr_eq_ok.1 h
    exact hl x hx

end Sys2Proof.Machine
end

