-- ==== Sys2Proof/Laws/Decode.lean ====
section
/-! SUPPORT. Digits, modes and the opcode map (spec/30_encoding.md). -/

namespace Sys2Proof

theorem digit_lt (k a : Nat) : digit k a < 10 := Nat.mod_lt _ (by decide)

/-- A decimal digit stands for a well-formed mode (R85). -/
theorem modeOfDigit_wf {d : Nat} (h : d < 10) : (modeOfDigit d).wf = true := by
  unfold modeOfDigit
  split
  · rfl
  · split
    · rfl
    · split
      · rfl
      · simp only [Mode.wf, decide_eq_true_eq]
        omega

/-- The digit of a well-formed mode is that mode's digit and no other's (R85). -/
theorem modeOfDigit_digit {m : Mode} (h : m.wf = true) : modeOfDigit m.digit = m := by
  cases m with
  | position | immediate | relative => rfl
  | unknown d =>
    simp only [Mode.wf, decide_eq_true_eq] at h
    have h0 : d ≠ 0 := by omega
    have h1 : d ≠ 1 := by omega
    have h2 : d ≠ 2 := by omega
    simp [Mode.digit, modeOfDigit, h0, h1, h2]

theorem Mode.digit_lt {m : Mode} (h : m.wf = true) : m.digit < 10 := by
  cases m with
  | position | immediate | relative => decide
  | unknown d =>
    simp only [Mode.wf, decide_eq_true_eq] at h
    simp only [Mode.digit]
    omega

/-- A number of at most five digits splits into the digits it was composed of (R82, R95). -/
theorem splitFields_compose {op d1 d2 d3 : Nat} (h0 : op < 100) (h1 : d1 < 10) (h2 : d2 < 10) (h3 : d3 < 10) :
    splitFields (op + 100 * d1 + 1000 * d2 + 10000 * d3) =
      { opcode := op, mode1 := d1, mode2 := d2, mode3 := d3 } := by
  simp only [splitFields, digit, Fields.mk.injEq]
  omega

/-- The decoder of this hardware is the decoder over the integers, at the word's value (R82). -/
theorem decode_eq (w : Word) : decode w = decodeValue w.toInt := rfl

theorem Instr.opcode_lt (i : Instr) : i.opcode < 100 := by cases i <;> simp [Instr.opcode]

/-- The decoder refuses only opcodes outside the map, and records the opcode (R90, R91). -/
theorem selectInstr_eq_error {f : Fields} {e : DecodeError} (h : selectInstr f = .error e) :
    e = .unknownOpcode f.opcode ∧ f.opcode ∉ [1, 2, 3, 4, 5, 6, 7, 8, 9, 99] := by
  obtain ⟨op, a, b, c⟩ := f
  unfold selectInstr at h
  dsimp only at h ⊢
  split at h
  iterate 10 cases h
  injection h with h
  refine ⟨h.symm, ?_⟩
  simp only [List.mem_cons, List.not_mem_nil, or_false, not_or]
  refine ⟨?_, ?_, ?_, ?_, ?_, ?_, ?_, ?_, ?_, ?_⟩ <;> assumption

/-- The decoder answers well-formed instructions only (R82). -/
theorem decodeValue_wf {v : Int} {i : Instr} (h : decodeValue v = .ok i) : i.wf = true := by
  unfold decodeValue at h
  split at h
  · cases h
  · unfold selectInstr at h
    split at h
    all_goals first
      | (injection h with h; subst h; simp [Instr.wf, splitFields, modeOfDigit_wf, digit_lt])
      | cases h

/-- The opcode of a refused word: the remainder of a negative one (R83), or one outside the map (R91). -/
theorem decodeValue_eq_error {v op : Int} (h : decodeValue v = .error (.unknownOpcode op)) :
    v < 0 ∧ op = -(-v % 100) ∨ 0 ≤ v ∧ op = v % 100 ∧ ¬(1 ≤ op ∧ op ≤ 9) ∧ op ≠ 99 := by
  unfold decodeValue at h
  split at h
  · injection h with h
    injection h with h
    exact .inl ⟨by assumption, h.symm⟩
  · obtain ⟨h1, h2⟩ := selectInstr_eq_error h
    injection h1 with h1
    simp only [splitFields, List.mem_cons, List.not_mem_nil, or_false] at h1 h2
    omega

end Sys2Proof
end

