-- ==== Sys2Proof/Laws/Exec.lean ====
section
/-! SUPPORT. Everything an instruction can do when it answers a next state, one inversion lemma for each
shape: either the state before it with a fault taken, or its own effect. -/

namespace Sys2Proof.Machine

variable {W : Nat}

variable {s t : State.Of W}

theorem aluInstr_cases {op : AluOp} {ma mb md : Mode} (h : aluInstr op ma mb md s = .next t) :
    (∃ c, t = s.raise c) ∨
      ∃ (a b : Word W) (d : Addr W) (r : Word W) (n : Addr W),
        rd s 1 ma = .ok a ∧ rd s 2 mb = .ok b ∧ wr s 3 md = .ok d ∧ chk (alu op a.toInt b.toInt) = .ok r ∧
          chkPc s 4 = .ok n ∧ t = (s.memWrite d r).setPc n := by
  rcases commit_eq_next.1 h with h | ⟨c, -, h⟩
  · simp only [bind_eq_ok, Except.ok.injEq] at h
    obtain ⟨a, ha, b, hb, d, hd, r, hr, n, hn, rfl⟩ := h
    exact .inr ⟨a, b, d, r, n, ha, hb, hd, hr, hn, rfl⟩
  · exact .inl ⟨c, h⟩

theorem execIn_cases {md : Mode} (h : execIn md s = .next t) :
    (∃ c, t = s.raise c) ∨
      ∃ (d : Addr W) (v : Word W) (n : Addr W),
        wr s 1 md = .ok d ∧ nextInput s = .ok v ∧ chkPc s 2 = .ok n ∧
          t = ((s.memWrite d v).consumeInput).setPc n := by
  rcases commit_eq_next.1 h with h | ⟨c, -, h⟩
  · simp only [bind_eq_ok, Except.ok.injEq] at h
    obtain ⟨d, hd, v, hv, n, hn, rfl⟩ := h
    exact .inr ⟨d, v, n, hd, hv, hn, rfl⟩
  · exact .inl ⟨c, h⟩

theorem execOut_cases {ma : Mode} (h : execOut ma s = .next t) :
    (∃ c, t = s.raise c) ∨
      ∃ (a : Word W) (n : Addr W), rd s 1 ma = .ok a ∧ chkPc s 2 = .ok n ∧ t = (s.pushOut a).setPc n := by
  rcases commit_eq_next.1 h with h | ⟨c, -, h⟩
  · simp only [bind_eq_ok, Except.ok.injEq] at h
    obtain ⟨a, ha, n, hn, rfl⟩ := h
    exact .inr ⟨a, n, ha, hn, rfl⟩
  · exact .inl ⟨c, h⟩

theorem execArb_cases {ma : Mode} (h : execArb ma s = .next t) :
    (∃ c, t = s.raise c) ∨
      ∃ (a v : Word W) (n : Addr W),
        rd s 1 ma = .ok a ∧ chk (s.rb.toInt + a.toInt) = .ok v ∧ chkPc s 2 = .ok n ∧ t = (s.setRb v).setPc n := by
  rcases commit_eq_next.1 h with h | ⟨c, -, h⟩
  · simp only [bind_eq_ok, Except.ok.injEq] at h
    obtain ⟨a, ha, v, hv, n, hn, rfl⟩ := h
    exact .inr ⟨a, v, n, ha, hv, hn, rfl⟩
  · exact .inl ⟨c, h⟩

theorem execJt_cases {ma mb : Mode} (h : execJt ma mb s = .next t) :
    (∃ c, t = s.raise c) ∨
      ∃ (a b : Word W) (n : Addr W),
        rd s 1 ma = .ok a ∧ rd s 2 mb = .ok b ∧ t = s.setPc n ∧
          (wordIsTrue a = true ∧ b.toInt = (n.val : Int) ∨ wordIsTrue a = false ∧ n.val = s.pc.val + 3) := by
  rcases commit_eq_next.1 h with h | ⟨c, -, h⟩
  · simp only [bind_eq_ok] at h
    obtain ⟨a, ha, b, hb, h⟩ := h
    cases ht : wordIsTrue a with
    | true =>
      rw [ht, if_pos rfl] at h
      obtain ⟨n, hn, rfl⟩ := jumpTo_eq_ok.1 h
      exact .inr ⟨a, b, n, ha, hb, rfl, .inl ⟨ht, hn⟩⟩
    | false =>
      rw [ht, if_neg (by decide)] at h
      obtain ⟨n, hn, rfl⟩ := fallThrough_eq_ok.1 h
      exact .inr ⟨a, b, n, ha, hb, rfl, .inr ⟨ht, hn⟩⟩
  · exact .inl ⟨c, h⟩

theorem execJf_cases {ma mb : Mode} (h : execJf ma mb s = .next t) :
    (∃ c, t = s.raise c) ∨
      ∃ (a b : Word W) (n : Addr W),
        rd s 1 ma = .ok a ∧ rd s 2 mb = .ok b ∧ t = s.setPc n ∧
          (wordIsTrue a = false ∧ b.toInt = (n.val : Int) ∨ wordIsTrue a = true ∧ n.val = s.pc.val + 3) := by
  rcases commit_eq_next.1 h with h | ⟨c, -, h⟩
  · simp only [bind_eq_ok] at h
    obtain ⟨a, ha, b, hb, h⟩ := h
    cases ht : wordIsTrue a with
    | true =>
      rw [ht, if_pos rfl] at h
      obtain ⟨n, hn, rfl⟩ := fallThrough_eq_ok.1 h
      exact .inr ⟨a, b, n, ha, hb, rfl, .inr ⟨ht, hn⟩⟩
    | false =>
      rw [ht, if_neg (by decide)] at h
      obtain ⟨n, hn, rfl⟩ := jumpTo_eq_ok.1 h
      exact .inr ⟨a, b, n, ha, hb, rfl, .inl ⟨ht, hn⟩⟩
  · exact .inl ⟨c, h⟩

/-- What any instruction can do at any width (R119, R120): take a fault in the state before it, halt, or complete by changing
only the program counter and one other thing. -/
theorem execAt_cases {i : Instr} (h : execAt i s = .next t) :
    (∃ c, t = s.raise c) ∨ (i = .halt ∧ t = s.halt) ∨
      ∃ n : Addr W, t = s.setPc n ∨ (∃ v, t = (s.pushOut v).setPc n) ∨ (∃ v, t = (s.setRb v).setPc n) ∨
        (∃ d v, t = (s.memWrite d v).setPc n) ∨
        (∃ d v, nextInput s = .ok v ∧ t = ((s.memWrite d v).consumeInput).setPc n) := by
  cases i with
  | add a b d | mul a b d | lt a b d | eq a b d =>
    rcases aluInstr_cases h with h | ⟨_, _, d, r, n, -, -, -, -, -, h⟩
    · exact .inl h
    · exact .inr (.inr ⟨n, .inr (.inr (.inr (.inl ⟨d, r, h⟩)))⟩)
  | inp d =>
    rcases execIn_cases h with h | ⟨d, v, n, -, hv, -, h⟩
    · exact .inl h
    · exact .inr (.inr ⟨n, .inr (.inr (.inr (.inr ⟨d, v, hv, h⟩)))⟩)
  | out a =>
    rcases execOut_cases h with h | ⟨v, n, -, -, h⟩
    · exact .inl h
    · exact .inr (.inr ⟨n, .inr (.inl ⟨v, h⟩)⟩)
  | arb a =>
    rcases execArb_cases h with h | ⟨_, v, n, -, -, -, h⟩
    · exact .inl h
    · exact .inr (.inr ⟨n, .inr (.inr (.inl ⟨v, h⟩))⟩)
  | jt a b =>
    rcases execJt_cases h with h | ⟨_, _, n, -, -, h, -⟩
    · exact .inl h
    · exact .inr (.inr ⟨n, .inl h⟩)
  | jf a b =>
    rcases execJf_cases h with h | ⟨_, _, n, -, -, h, -⟩
    · exact .inl h
    · exact .inr (.inr ⟨n, .inl h⟩)
  | halt => exact .inr (.inl ⟨rfl, (Host.Outcome.next.inj h).symm⟩)

/-- `execAt_cases` for this hardware. -/
theorem exec_cases {s t : State} {i : Instr} (h : exec i s = .next t) :
    (∃ c, t = s.raise c) ∨ (i = .halt ∧ t = s.halt) ∨
      ∃ n : Addr, t = s.setPc n ∨ (∃ v, t = (s.pushOut v).setPc n) ∨ (∃ v, t = (s.setRb v).setPc n) ∨
        (∃ d v, t = (s.memWrite d v).setPc n) ∨
        (∃ d v, nextInput s = .ok v ∧ t = ((s.memWrite d v).consumeInput).setPc n) :=
  execAt_cases (by cases i <;> exact h)

end Sys2Proof.Machine
end

