-- ==== Sys2Proof/Laws/PerInstr.lean ====
section
/-! SUPPORT. Statements about every instruction as syntax, one lemma for each constructor. -/

namespace Sys2Proof.Laws.EncodeShape

/-- The canonical word of a well-formed instruction has at most five decimal digits, and splits into the
instruction's opcode and mode digits (R94, R95). -/
def Statement (i : Instr) : Prop :=
  i.wf = true → encodeNat i < 100000 ∧ splitFields (encodeNat i) =
    { opcode := i.opcode, mode1 := i.modeDigits.1, mode2 := i.modeDigits.2.1, mode3 := i.modeDigits.2.2 }

/-- Three digits below ten give a canonical word of the stated shape. -/
theorem of_digits_lt {i : Instr}
    (h : i.wf = true → i.modeDigits.1 < 10 ∧ i.modeDigits.2.1 < 10 ∧ i.modeDigits.2.2 < 10) : Statement i := by
  intro hi
  obtain ⟨h1, h2, h3⟩ := h hi
  have h0 := Instr.opcode_lt i
  refine ⟨?_, splitFields_compose h0 h1 h2 h3⟩
  simp only [encodeNat]
  omega

theorem three_digits {a b c : Mode} (h : (a.wf && b.wf && c.wf) = true) :
    a.digit < 10 ∧ b.digit < 10 ∧ c.digit < 10 := by
  simp only [Bool.and_eq_true] at h
  exact ⟨Mode.digit_lt h.1.1, Mode.digit_lt h.1.2, Mode.digit_lt h.2⟩

theorem two_digits {a b : Mode} (h : (a.wf && b.wf) = true) : a.digit < 10 ∧ b.digit < 10 ∧ 0 < 10 := by
  simp only [Bool.and_eq_true] at h
  exact ⟨Mode.digit_lt h.1, Mode.digit_lt h.2, by decide⟩

theorem one_digit {a : Mode} (h : a.wf = true) : a.digit < 10 ∧ 0 < 10 ∧ 0 < 10 :=
  ⟨Mode.digit_lt h, by decide, by decide⟩

theorem add (a b dest : Mode) : Statement (.add a b dest) := of_digits_lt three_digits
theorem mul (a b dest : Mode) : Statement (.mul a b dest) := of_digits_lt three_digits
theorem inp (dest : Mode) : Statement (.inp dest) := of_digits_lt one_digit
theorem out (a : Mode) : Statement (.out a) := of_digits_lt one_digit
theorem jt (a b : Mode) : Statement (.jt a b) := of_digits_lt two_digits
theorem jf (a b : Mode) : Statement (.jf a b) := of_digits_lt two_digits
theorem lt (a b dest : Mode) : Statement (.lt a b dest) := of_digits_lt three_digits
theorem eq (a b dest : Mode) : Statement (.eq a b dest) := of_digits_lt three_digits
theorem arb (a : Mode) : Statement (.arb a) := of_digits_lt one_digit
theorem halt : Statement .halt := of_digits_lt fun _ => ⟨by decide, by decide, by decide⟩

end Sys2Proof.Laws.EncodeShape
end

