-- ==== Sys2Proof/Laws/Step.lean ====
section
/-! SUPPORT. Everything a step can do when it answers a next state, and what placing words leaves alone
(spec/40_step_and_operands.md R110). -/

namespace Sys2Proof.Machine

variable {W : Nat}

/-- A step that answers comes from a running core, and either executes the decoded instruction or takes
`UnknownOpcode` (R110, R123), whatever executing is. -/
theorem stepWith_cases {execute : Instr → State.Of W → Host.Outcome (State.Of W) Fault Refusal} {s t : State.Of W}
    (h : stepWith execute s = .next t) :
    s.status = .running ∧
      ((∃ i, decodeValue (s.memRead s.pc).toInt = .ok i ∧ execute i s = .next t) ∨
        ∃ op, decodeValue (s.memRead s.pc).toInt = .error (.unknownOpcode op) ∧
          t = s.raise (.unknownOpcode op s.pc)) := by
  unfold stepWith at h
  cases hs : s.status with
  | halted => rw [hs] at h; cases h
  | faulted => rw [hs] at h; cases h
  | running =>
    refine ⟨rfl, ?_⟩
    rw [hs] at h
    simp only [fetch] at h
    cases hd : decodeValue (s.memRead s.pc).toInt with
    | ok i => rw [hd] at h; exact .inl ⟨i, rfl, h⟩
    | error e =>
      obtain ⟨op⟩ := e
      rw [hd] at h
      exact .inr ⟨op, rfl, (Host.Outcome.next.inj h).symm⟩

/-- `stepWith_cases` for this hardware. -/
theorem step_cases {s t : State} (h : step s = .next t) :
    s.status = .running ∧
      ((∃ i, decode (s.memRead s.pc) = .ok i ∧ exec i s = .next t) ∨
        ∃ op, decode (s.memRead s.pc) = .error (.unknownOpcode op) ∧ t = s.raise (.unknownOpcode op s.pc)) :=
  stepWith_cases h

/-- Placing words changes no register and no port, and no word below the first one placed. -/
theorem placeWords_kept (ws : List (Word W)) (s : State.Of W) (n : Nat) :
    (placeWords s n ws).pc = s.pc ∧ (placeWords s n ws).rb = s.rb ∧ (placeWords s n ws).input = s.input ∧
      (placeWords s n ws).inCursor = s.inCursor ∧ (placeWords s n ws).out = s.out ∧
      ∀ a, a < s.pc.val + n → Memory.read (placeWords s n ws).mem a = Memory.read s.mem a := by
  induction ws generalizing s n with
  | nil => exact ⟨rfl, rfl, rfl, rfl, rfl, fun _ _ => rfl⟩
  | cons w ws ih =>
    unfold placeWords
    cases h : chkPc s n with
    | error c => exact ⟨rfl, rfl, rfl, rfl, rfl, fun _ _ => rfl⟩
    | ok p =>
      have hp := chkPc_eq_ok.1 h
      obtain ⟨h1, h2, h3, h4, h5, h6⟩ := ih (s.memWrite p w) (n + 1)
      refine ⟨h1, h2, h3, h4, h5, fun a ha => ?_⟩
      have hne : a ≠ p.val := by omega
      rw [h6 a (by simp only [State.Of.memWrite_pc]; omega), State.Of.memWrite_mem, Memory.read_write_ne _ _ hne]

/-! ### Runs -/

section

variable {next : State.Of W → Host.Outcome (State.Of W) Fault Refusal} {s t : State.Of W}

@[simp] theorem runWith_zero : runWith next 0 s = s := rfl

/-- A run takes the step that is there. -/
theorem runWith_of_next {n : Nat} (h : next s = .next t) : runWith next (n + 1) s = runWith next n t := by
  simp [runWith, h]

/-- A run stays where there is no next state. -/
theorem runWith_of_no_next (h : ∀ t, next s ≠ .next t) (n : Nat) : runWith next n s = s := by
  cases n with
  | zero => rfl
  | succ n =>
    unfold runWith
    split
    · exact absurd ‹_› (h _)
    · rfl
    · rfl

end

end Sys2Proof.Machine
end

