-- ==== Sys2Proof/Laws/Width.lean ====
section
/-! SUPPORT. States of the same values at two word widths (spec/00_scope.md R4; spec/92_eei_decisions.md D1): each
shared operation of the wider machine answers the same value, unless the narrower one overflows. -/

namespace Sys2Proof.Claims

open Sys2Proof.Machine

variable {V W : Nat}

/-! ### Ranges -/

theorem amax_cast (W : Nat) : (Config.AMAX W : Int) = 2 ^ (W - 1) - 1 := by
  simp [Config.AMAX, Nat.cast_sub (Nat.two_pow_pos (W - 1))]

theorem inIntW_iff {v : Int} : InIntW v W ↔ -2 ^ (W - 1) ≤ v ∧ v ≤ 2 ^ (W - 1) - 1 := by
  simp [InIntW, Config.INT_MIN, Config.INT_MAX, amax_cast]

theorem amax_mono (h : V ≤ W) : Config.AMAX V ≤ Config.AMAX W :=
  Nat.sub_le_sub_right (Nat.pow_le_pow_right (by decide) (by omega)) 1

/-- A wider word holds every value of a narrower one (R5). -/
theorem inIntW_mono (h : V ≤ W) {v : Int} (hv : InIntW v V) : InIntW v W := by
  have hA : (Config.AMAX V : Int) ≤ Config.AMAX W := by exact_mod_cast amax_mono h
  rw [amax_cast, amax_cast] at hA
  rw [inIntW_iff] at *
  omega

/-! ### Stages that may fault -/

/-- The second stage answers what the first one does: a related result, or a fault with the same record.  Where the
first one overflows, nothing is said. -/
def Lifts {α β : Type} (R : α → β → Prop) (x : Except (Cause.Of V) α) (y : Except (Cause.Of W) β) : Prop :=
  match x with
  | .ok a => ∃ b, y = .ok b ∧ R a b
  | .error c => c = .overflow ∨ ∃ d, y = .error d ∧ d.record = c.record

theorem Lifts.ok {α β : Type} {R : α → β → Prop} {a : α} {b : β} (h : R a b) :
    Lifts (V := V) (W := W) R (.ok a) (.ok b) := ⟨b, rfl, h⟩

theorem Lifts.bind {α β γ δ : Type} {R : α → β → Prop} {S : γ → δ → Prop} {x : Except (Cause.Of V) α}
    {y : Except (Cause.Of W) β} {f : α → Except (Cause.Of V) γ} {g : β → Except (Cause.Of W) δ} (h : Lifts R x y)
    (hf : ∀ a b, R a b → Lifts S (f a) (g b)) : Lifts S (x >>= f) (y >>= g) := by
  cases x with
  | ok a =>
    obtain ⟨b, rfl, hr⟩ := h
    exact hf a b hr
  | error c =>
    rcases h with h | ⟨d, rfl, hr⟩
    · exact .inl h
    · exact .inr ⟨d, rfl, hr⟩

/-- Two words of one value. -/
def SameWord (a : Word V) (b : Word W) : Prop := b.toInt = a.toInt

/-- Two addresses of one value. -/
def SameAddr (a : Addr V) (b : Addr W) : Prop := b.val = a.val

variable {s : State.Of V} {t : State.Of W}

theorem lifts_chk [NeZero V] [NeZero W] (h : V ≤ W) {v w : Int} (hv : v = w) :
    Lifts SameWord (chk (W := V) v) (chk (W := W) w) := by
  subst hv
  by_cases hv : InIntW v V
  · have hw := inIntW_mono h hv
    rw [chk_eq_ok.2 ⟨hv, toInt_ofInt hv⟩, chk_eq_ok.2 ⟨hw, toInt_ofInt hw⟩]
    exact .ok ((toInt_ofInt hw).trans (toInt_ofInt hv).symm)
  · rw [chk_eq_error.2 ⟨hv, rfl⟩]
    exact .inl rfl

theorem lifts_chkPc (h : V ≤ W) (hs : SameValues s t) (n : Nat) : Lifts SameAddr (chkPc s n) (chkPc t n) := by
  have hA := amax_mono h
  have hp := hs.pc
  by_cases hb : s.pc.val + n < Config.AMAX V + 1
  · rw [(chkPc_eq_ok (p := ⟨s.pc.val + n, hb⟩)).2 rfl, (chkPc_eq_ok (p := ⟨t.pc.val + n, by omega⟩)).2 rfl]
    exact .ok (by simp [SameAddr, hp])
  · rw [chkPc_eq_error.2 ⟨by omega, rfl⟩]
    exact .inl rfl

theorem lifts_addrOf {a : Word V} {b : Word W} (h : SameWord a b) : Lifts SameAddr (addrOf a) (addrOf b) := by
  unfold SameWord at h
  by_cases ha : a.toInt < 0
  · rw [addrOf_eq_error.2 ⟨ha, rfl⟩, addrOf_eq_error.2 ⟨by omega, rfl⟩]
    exact .inr ⟨_, rfl, rfl⟩
  · rw [addrOf_eq_ok (a := ⟨a.toInt.toNat, Word.toNat_lt a⟩).2 (by simp; omega),
      addrOf_eq_ok (a := ⟨b.toInt.toNat, Word.toNat_lt b⟩).2 (by simp; omega)]
    exact .ok (by simp [SameAddr, h])

theorem SameValues.memRead (hs : SameValues s t) {a : Addr V} {b : Addr W} (h : SameAddr a b) :
    SameWord (s.memRead a) (t.memRead b) := by
  rw [SameWord, State.Of.memRead, State.Of.memRead, h]
  exact hs.mem a.val

theorem lifts_nextInput (hs : SameValues s t) : Lifts SameWord (nextInput s) (nextInput t) := by
  have h := congrArg (fun l => l[s.inCursor]?) hs.input
  simp only [List.getElem?_map] at h
  unfold nextInput
  rw [hs.inCursor]
  cases h1 : s.input[s.inCursor]? <;> cases h2 : t.input[s.inCursor]? <;> rw [h1, h2] at h
  · exact .inr ⟨_, rfl, rfl⟩
  · cases h
  · cases h
  · exact .ok (Option.some.inj h)

/-! ### Parameters -/

theorem lifts_raw (h : V ≤ W) (hs : SameValues s t) (k : Nat) : Lifts SameWord (raw s k) (raw t k) :=
  (lifts_chkPc h hs k).bind fun _ _ hp => .ok (hs.memRead hp)

theorem lifts_paramAddr [NeZero V] [NeZero W] (h : V ≤ W) (hs : SameValues s t) (k : Nat) (m : AddrMode) :
    Lifts SameAddr (paramAddr s k m) (paramAddr t k m) :=
  (lifts_raw h hs k).bind fun _ _ hr =>
    match m with
    | .position => lifts_addrOf hr
    | .relative => (lifts_chk h (by rw [hr, hs.rb])).bind fun _ _ => lifts_addrOf

theorem lifts_rd [NeZero V] [NeZero W] (h : V ≤ W) (hs : SameValues s t) (k : Nat) (m : Mode) :
    Lifts SameWord (rd s k m) (rd t k m) :=
  match m with
  | .unknown _ => .inr ⟨_, rfl, rfl⟩
  | .immediate => lifts_raw h hs k
  | .position => (lifts_paramAddr h hs k _).bind fun _ _ ha => .ok (hs.memRead ha)
  | .relative => (lifts_paramAddr h hs k _).bind fun _ _ ha => .ok (hs.memRead ha)

theorem lifts_wr [NeZero V] [NeZero W] (h : V ≤ W) (hs : SameValues s t) (k : Nat) (m : Mode) :
    Lifts SameAddr (wr s k m) (wr t k m) :=
  match m with
  | .unknown _ => .inr ⟨_, rfl, rfl⟩
  | .immediate => .inr ⟨_, rfl, rfl⟩
  | .position => lifts_paramAddr h hs k _
  | .relative => lifts_paramAddr h hs k _

/-! ### Updates -/

theorem SameValues.setPc (hs : SameValues s t) {p : Addr V} {q : Addr W} (h : SameAddr p q) :
    SameValues (s.setPc p) (t.setPc q) := { hs with pc := h }

theorem SameValues.setRb (hs : SameValues s t) {v : Word V} {w : Word W} (h : SameWord v w) :
    SameValues (s.setRb v) (t.setRb w) := { hs with rb := h }

theorem SameValues.pushOut (hs : SameValues s t) {v : Word V} {w : Word W} (h : SameWord v w) :
    SameValues (s.pushOut v) (t.pushOut w) :=
  { hs with out := by rw [State.Of.pushOut_out, State.Of.pushOut_out, List.map_append, hs.out, List.map_append,
      List.map_singleton, List.map_singleton, h] }

theorem SameValues.consumeInput (hs : SameValues s t) : SameValues s.consumeInput t.consumeInput :=
  { hs with inCursor := congrArg (· + 1) hs.inCursor }

theorem SameValues.memWrite (hs : SameValues s t) {a : Addr V} {b : Addr W} (ha : SameAddr a b) {v : Word V}
    {w : Word W} (h : SameWord v w) : SameValues (s.memWrite a v) (t.memWrite b w) :=
  { hs with
    mem := fun x => by
      rw [State.Of.memWrite_mem, State.Of.memWrite_mem, ha]
      by_cases hx : x = a.val
      · rw [hx, Memory.read_write_self, Memory.read_write_self]
        exact h
      · rw [Memory.read_write_ne _ _ hx, Memory.read_write_ne _ _ hx]
        exact hs.mem x
    extent := by rw [State.Of.memWrite_extent, State.Of.memWrite_extent, ha, hs.extent] }

theorem SameValues.raise (hs : SameValues s t) {c : Cause.Of V} {d : Cause.Of W} (h : d.record = c.record) :
    SameValues (s.raise c) (t.raise d) := { hs with status := rfl, fault := h }

theorem SameValues.halt (hs : SameValues s t) : SameValues s.halt t.halt :=
  { hs with status := rfl, retval := hs.mem 0 }

/-- The end of an instruction: where the narrower one does not overflow, the wider one ends in the same values. -/
theorem SameValues.commit (hs : SameValues s t) {x : Except (Cause.Of V) (State.Of V)}
    {y : Except (Cause.Of W) (State.Of W)} (h : Lifts SameValues x y) {u : State.Of V}
    (hu : Machine.commit s x = .next u) (hn : NoOverflow u) : ∃ v, Machine.commit t y = .next v ∧ SameValues u v := by
  cases x with
  | ok a =>
    obtain ⟨b, rfl, hr⟩ := h
    cases hu
    exact ⟨b, rfl, hr⟩
  | error c =>
    cases hu
    rcases h with rfl | ⟨d, rfl, hr⟩
    · exact absurd rfl hn
    · exact ⟨_, rfl, hs.raise hr⟩

end Sys2Proof.Claims
end

