-- ==== Sys2Proof/Tests/Slice0.lean ====
section
/-! SUPPORT. The model's own tests: ill-formed terms, words decoded by hand from spec/30_encoding.md, single
steps of the vectors of spec/95_test_vectors.md (named V-… and S… as there), and for every obligation with
hypotheses a concrete case that meets them. -/

namespace Sys2Proof.Tests

open Sys2Proof.Machine Sys2Proof.Claims

/-! ### Helpers -/

/-- The reset state for an image and an input. -/
def img (image : List Int) (input : List Int := []) : State :=
  State.Of.boot (image.map Word.ofInt) (input.map Word.ofInt)

/-- `img` from `rb = r`, as the vectors write it. -/
def imgRb (r : Int) (image : List Int) (input : List Int := []) : State :=
  { img image input with rb := Word.ofInt r }

/-- Words that begin `n` below the largest address, with `pc` at the first one. -/
def top (n : Nat) (words : List Int) (input : List Int := []) : State :=
  { State.reset with
    mem := Memory.ofImage (Config.AMAX - n) (words.map Word.ofInt)
    extent := Config.AMAX - n + words.length
    pc := ⟨Config.AMAX - n, by omega⟩
    input := input.map Word.ofInt }

/-- One step answers a next state with this property. -/
def afterStep (s : State) (p : State → Bool) : Bool :=
  match step s with
  | .next t => p t
  | .fault _ => false
  | .refused _ => false

/-- One step takes this fault and changes nothing else. -/
def faultsWith (s : State) (c : Cause) : Bool := afterStep s (fun t => decide (t = faultedWith s c))

/-- The step stops in a terminal state. -/
def noStep (s : State) : Bool :=
  match step s with
  | .next _ => false
  | .fault _ => true
  | .refused _ => false

/-- The launch is refused. -/
def launchRefused (image input : List Int) : Bool :=
  match launch image input with
  | .next _ => false
  | .fault _ => false
  | .refused _ => true

/-! ### Well-formedness (R85) and legality (R86, R87) -/

theorem test_wf_refuses_add_a : (Instr.add (.unknown 2) .position .position).wf = false := by decide
theorem test_wf_refuses_add_b : (Instr.add .position (.unknown 10) .position).wf = false := by decide
theorem test_wf_refuses_add_dest : (Instr.add .position .position (.unknown 0)).wf = false := by decide
theorem test_wf_refuses_mul_dest : (Instr.mul .position .position (.unknown 12)).wf = false := by decide
theorem test_wf_refuses_in : (Instr.inp (.unknown 1)).wf = false := by decide
theorem test_wf_refuses_out : (Instr.out (.unknown 10)).wf = false := by decide
theorem test_wf_refuses_jt_a : (Instr.jt (.unknown 2) .position).wf = false := by decide
theorem test_wf_refuses_jf_b : (Instr.jf .position (.unknown 10)).wf = false := by decide
theorem test_wf_refuses_lt_a : (Instr.lt (.unknown 0) .position .position).wf = false := by decide
theorem test_wf_refuses_eq_b : (Instr.eq .position (.unknown 1) .position).wf = false := by decide
theorem test_wf_refuses_arb : (Instr.arb (.unknown 2)).wf = false := by decide
theorem test_wf_accepts_illegal_digits : (Instr.add (.unknown 3) (.unknown 9) .immediate).wf = true := by decide
theorem test_legal_refuses_immediate_target : (Instr.lt .position .immediate .immediate).legal = false := by decide
theorem test_legal_refuses_unknown_read : (Instr.out (.unknown 3)).legal = false := by decide
theorem test_legal_accepts_relative_target : (Instr.inp .relative).legal = true := by decide

/-! ### Decoding, by hand from R82, R85, R90 -/

theorem test_decode_add : decode 22201 = .ok (.add .relative .relative .relative) := by decide
theorem test_decode_mul : decode 2 = .ok (.mul .position .position .position) := by decide
theorem test_decode_in : decode 3 = .ok (.inp .position) := by decide
theorem test_decode_out : decode 30004 = .ok (.out .position) := by decide
theorem test_decode_jt : decode 2105 = .ok (.jt .immediate .relative) := by decide
theorem test_decode_jf : decode 1006 = .ok (.jf .position .immediate) := by decide
theorem test_decode_lt : decode 20107 = .ok (.lt .immediate .position .relative) := by decide
theorem test_decode_eq : decode 21208 = .ok (.eq .relative .immediate .relative) := by decide
theorem test_decode_arb : decode 209 = .ok (.arb .relative) := by decide
theorem test_decode_halt : decode 12399 = .ok .halt := by decide
theorem test_decode_ignores_high_digits : decode 100001 = .ok (.add .position .position .position) := by decide
theorem test_decode_unknown_digits :
    decode 98703 = .ok (.inp (.unknown 7)) ∧ decode 98701 = .ok (.add (.unknown 7) (.unknown 8) (.unknown 9)) := by
  decide
theorem test_decode_refuses_zero : decode 0 = .error (.unknownOpcode 0) := by decide
theorem test_decode_refuses_ten : decode 1110 = .error (.unknownOpcode 10) := by decide
theorem test_decode_refuses_negative : decode (-100) = .error (.unknownOpcode 0) := by decide
/-- `INT_MIN` ends in the digits 08, so the recorded opcode is -8 (R83). -/
theorem test_decode_refuses_intMin : decode (-9223372036854775808) = .error (.unknownOpcode (-8)) := by decide
/-- `INT_MAX` ends in the digits 75807: opcode 7, modes 8, 5, 7. -/
theorem test_decode_intMax :
    decode 9223372036854775807 = .ok (.lt (.unknown 8) (.unknown 5) (.unknown 7)) := by decide

/-! ### Encoding (R95): canonical words of the source's programs (S12) -/

theorem test_encode_add : encode (.add .position .immediate .position) = 1001 := by decide
theorem test_encode_mul : encode (.mul .immediate .immediate .position) = 1102 := by decide
theorem test_encode_in : encode (.inp .position) = 3 := by decide
theorem test_encode_out : encode (.out .relative) = 204 := by decide
theorem test_encode_jt : encode (.jt .immediate .immediate) = 1105 := by decide
theorem test_encode_jf : encode (.jf .position .immediate) = 1006 := by decide
theorem test_encode_lt : encode (.lt .immediate .immediate .position) = 1107 := by decide
theorem test_encode_eq : encode (.eq .relative .immediate .relative) = 21208 := by decide
theorem test_encode_arb : encode (.arb .immediate) = 109 := by decide
theorem test_encode_halt : encode .halt = 99 := by decide

/-! ### The assembler notation (R96): listing P3 -/

theorem test_assemble_eq_relative :
    (Statement.eq (.relative (-2)) (.immediate 7) (.relative 0)).words = [21208, -2, 7, 0] := by decide
theorem test_assemble_data :
    assemble [.add (.immediate 100) (.immediate 4) (.position 4), .data [0, 42], .halt] =
      [1101, 100, 4, 4, 0, 42, 99] := by decide
theorem test_text_eq_relative :
    (Statement.eq (.relative (-2)) (.immediate 7) (.relative 0)).text =
      "EQ mem[relative_base-2], 7, mem[relative_base+0]" := by decide +kernel

/-! ### The host's table words and placed words (log entry 5) -/

theorem test_decodeTableWord : decodeTableWord 8 4 = some (.out .position) := by decide
theorem test_decodeTableWord_refuses : decodeTableWord 64 98 = none := by decide
theorem test_decodeTableWord_first_word : decodeTableWord 256 (109 + 5 * 2 ^ 64) = some (.arb .immediate) := by decide
/-- The placed `ARB 5` runs as the first instruction after reset. -/
theorem test_withFetchWord_runs :
    afterStep (State.reset.withFetchWord 128 (109 + 5 * 2 ^ 64)) (fun t => t.rb.toInt == 5 && t.pc.val == 2) = true := by
  decide

/-! ### The memory form -/

theorem test_wf_refuses_zero_entry : Memory.wf ([(3, 0)] : Memory) = false := by decide
theorem test_wf_refuses_unsorted : Memory.wf ([(4, 1), (3, 1)] : Memory) = false := by decide
theorem test_wf_refuses_beyond : Memory.wf ([(Config.AMAX + 1, 1)] : Memory) = false := by decide
theorem test_write_zero_unlists : Memory.write ([(3, 7), (5, 1)] : Memory) 3 0 = [(5, 1)] := by decide
theorem test_write_inserts_in_order : Memory.write ([(3, 7), (5, 1)] : Memory) 4 9 = [(3, 7), (4, 9), (5, 1)] := by decide

/-! ### One step of each instruction -/

/-- V-A1 -/
theorem test_add_position :
    afterStep (img [1, 5, 6, 7, 99, 20, 22]) (fun t => wordAt t 7 == 42 && t.extent == 8 && t.pc.val == 4) = true := by
  decide
/-- V-A3 -/
theorem test_add_relative :
    afterStep (imgRb 10 [22201, 1, 2, 3, 99, 0, 0, 0, 0, 0, 0, 10, 20])
      (fun t => wordAt t 13 == 30 && t.extent == 14 && t.rb.toInt == 10) = true := by decide
/-- V-A9 -/
theorem test_mul_signed :
    afterStep (img [1102, -7, 6, 5, 99]) (fun t => wordAt t 5 == -42 && t.pc.val == 4) = true := by decide
/-- V-A11 -/
theorem test_mul_large :
    afterStep (img [1102, 3037000499, 3037000499, 5, 99]) (fun t => wordAt t 5 == 9223372030926249001) = true := by
  decide
/-- V-A17 -/
theorem test_lt_extremes :
    afterStep (img [1107, -9223372036854775808, 9223372036854775807, 5, 99])
      (fun t => wordAt t 5 == 1 && t.pc.val == 4) = true := by decide
/-- V-A15 -/
theorem test_lt_equal :
    afterStep (img [1107, 3, 3, 5, 99, 77]) (fun t => wordAt t 5 == 0 && t.extent == 6) = true := by decide
/-- V-A19 -/
theorem test_eq_true : afterStep (img [1108, -3, -3, 5, 99, 77]) (fun t => wordAt t 5 == 1) = true := by decide
/-- V-A21 -/
theorem test_eq_unwritten :
    afterStep (img [8, 50, 51, 5, 99, 7]) (fun t => wordAt t 5 == 1 && t.extent == 6) = true := by decide
/-- V-AG6 -/
theorem test_in_relative :
    afterStep (imgRb 2 [203, 3, 99] [42])
      (fun t => wordAt t 5 == 42 && t.inCursor == 1 && t.extent == 6 && t.pc.val == 2) = true := by decide
/-- V-IO5 -/
theorem test_in_overwrites_itself :
    afterStep (img [3] [8]) (fun t => wordAt t 0 == 8 && t.pc.val == 2) = true := by decide
/-- V-AG3 -/
theorem test_out_relative :
    afterStep (imgRb 3 [204, -2, 99]) (fun t => t.out.map BitVec.toInt == [-2] && t.pc.val == 2) = true := by decide
/-- V-AG4 -/
theorem test_out_beyond_extent :
    afterStep (img [4, 100, 99]) (fun t => t.out.map BitVec.toInt == [0] && t.extent == 3) = true := by decide
/-- V-C6 -/
theorem test_jt_taken : afterStep (img [5, 4, 5, 99, 1, 6, 104, 9, 99]) (fun t => t.pc.val == 6) = true := by decide
/-- V-C9 -/
theorem test_jt_untaken_negative_target : afterStep (img [1105, 0, -1, 99]) (fun t => t.pc.val == 3) = true := by decide
/-- V-C7 -/
theorem test_jf_taken :
    afterStep (img [6, 5, 6, 99, 0, 0, 8, 0, 104, 77, 99]) (fun t => t.pc.val == 8) = true := by decide
/-- V-C4 -/
theorem test_jf_untaken : afterStep (img [1106, 7, 4, 99, 104, 5, 99]) (fun t => t.pc.val == 3) = true := by decide
/-- V-R3, from the state after its first ARB -/
theorem test_arb_relative_uses_old_base :
    afterStep { imgRb 4 [109, 4, 209, 0, 99, 0, 0, 0, 33] with pc := 2 }
      (fun t => t.rb.toInt == 103 && t.pc.val == 4) = true := by decide
/-- V-R2 -/
theorem test_arb_position : afterStep (img [9, 3, 99, 12]) (fun t => t.rb.toInt == 12) = true := by decide
/-- V-C14 -/
theorem test_halt :
    afterStep (img [12399]) (fun t => t.status == .halted && t.retval.toInt == 12399 && t.pc.val == 0) = true := by decide
/-- S1: the instruction overwrites its own word and still advances by 4. -/
theorem test_add_self_modifying :
    afterStep (img [1, 0, 0, 0, 99]) (fun t => wordAt t 0 == 2 && t.pc.val == 4 && t.extent == 5) = true := by decide

/-! ### Faults -/

theorem test_fault_S5_inputExhausted : faultsWith (img [3, 0, 99]) .inputExhausted = true := by decide
theorem test_fault_VA6_overflow : faultsWith (img [1101, 9223372036854775807, 1, 5, 99]) .overflow = true := by decide
theorem test_fault_VA13_overflow :
    faultsWith (img [1102, -9223372036854775808, -1, 5, 99]) .overflow = true := by decide
theorem test_fault_VAG7_negative : faultsWith (img [1, -1, 0, 0, 99]) .negativeAddress = true := by decide
theorem test_fault_VAG11_target_before_input : faultsWith (img [103, 0, 99]) .unsupportedWriteMode = true := by decide
theorem test_fault_VAG15_first_parameter_first :
    faultsWith (img [10301, 0, 0, 0]) (.unknownParameterMode 3) = true := by decide
theorem test_fault_VAG16_address_before_next_mode :
    faultsWith (img [3001, -1, 0, 0]) .negativeAddress = true := by decide
theorem test_fault_VC8_negative_jump : faultsWith (img [1105, 1, -1, 99]) .negativeAddress = true := by decide
theorem test_fault_VC10_untaken_target_resolved :
    faultsWith (img [3105, 0, 0, 99]) (.unknownParameterMode 3) = true := by decide
theorem test_fault_VD13_negative_word : faultsWith (img [-1]) (.unknownOpcode (-1) 0) = true := by decide
theorem test_fault_empty_image : faultsWith (img []) (.unknownOpcode 0 0) = true := by decide
theorem test_fault_record :
    (faultedWith (img [98]) (.unknownOpcode 98 0)).faultRecord = { cause := 1, info1 := 98, info2 := 0 } ∧
      (faultedWith (img [901]) (.unknownParameterMode 9)).faultRecord = { cause := 2, info1 := 9, info2 := 0 } := by
  decide
theorem test_terminal_states_take_no_step :
    noStep (faultedWith (img [98]) (.unknownOpcode 98 0)) = true ∧ noStep (img [99]).halt = true := by decide

/-! ### Launch and observation (R211, R212) -/

theorem test_launch_refuses_image_value : launchRefused [1, 9223372036854775808] [] = true := by decide
theorem test_launch_refuses_input_value : launchRefused [] [-9223372036854775809] = true := by decide
theorem test_launch_accepts_extremes :
    launchRefused [9223372036854775807] [-9223372036854775808] = false := by decide
theorem test_observe_halted :
    (img [99]).halt.observe =
      { status := 1, out := [], retval := some 99, finalMemory := some ([(0, 99)], 1), fault := none,
        pc := none } := by decide
/-- The end of P6: the second IN is at address 4. -/
theorem test_observe_faulted :
    (faultedWith { img [104, 1, 3, 50, 3, 51, 99] [9] with pc := 4, out := [1] } .inputExhausted).observe =
      { status := 2, out := [1], retval := none, finalMemory := none,
        fault := some { cause := 4, info1 := 0, info2 := 0 }, pc := some 4 } := by decide

/-! ### The access view (R66): V-A1 makes seven accesses, HALT two -/

theorem test_accesses_add :
    stepAccesses (img [1, 5, 6, 7, 99, 20, 22]) =
      [.read 0, .read 1, .read 5, .read 2, .read 6, .read 3, .write 7] := by decide
theorem test_accesses_halt : stepAccesses (img [104, 7, 99]) = [.read 0, .read 1] ∧
    stepAccesses { img [104, 7, 99] with pc := 2 } = [.read 2, .read 0] := by decide

/-! ### Witnesses: parameters, reset, the host, memory -/

/-- WordRangeIsSixtyFourBitSigned at both ends of the range. -/
theorem witness_WordRangeIsSixtyFourBitSigned :
    InIntW 9223372036854775807 ∧ InIntW (-9223372036854775808) ∧ ¬InIntW 9223372036854775808 := by decide

/-- LaunchLeavesTheResetValues: extreme values, an address inside the image and the first one behind it. -/
theorem witness_LaunchLeavesTheResetValues :
    (∀ v ∈ [-9223372036854775808, (9223372036854775807 : Int)], InIntW v) ∧
      (∀ v ∈ [(9223372036854775807 : Int)], InIntW v) ∧
      [-9223372036854775808, (9223372036854775807 : Int)].length ≤ Config.AMAX + 1 ∧
      1 < [-9223372036854775808, (9223372036854775807 : Int)].length ∧
      [-9223372036854775808, (9223372036854775807 : Int)].length ≤ 2 := by decide

/-- LaunchLeavesTheResetValues: the longest image. -/
theorem witness_LaunchLeavesTheResetValues_longest :
    (∀ v ∈ List.replicate (Config.AMAX + 1) (0 : Int), InIntW v) ∧
      (List.replicate (Config.AMAX + 1) (0 : Int)).length ≤ Config.AMAX + 1 := by
  refine ⟨fun v hv => ?_, by simp⟩
  rw [List.eq_of_mem_replicate hv]
  decide

/-- LaunchRefusesWhatTheHostMayNotOffer: one value past each end, in the image and in the input. -/
theorem witness_LaunchRefuses_value :
    (∃ v ∈ [9223372036854775808] ++ ([] : List Int), ¬InIntW v) ∧
      ∃ v ∈ ([] : List Int) ++ [-9223372036854775809], ¬InIntW v :=
  ⟨⟨9223372036854775808, by decide, by decide⟩, ⟨-9223372036854775809, by decide, by decide⟩⟩

/-- LaunchRefusesWhatTheHostMayNotOffer: one word too many. -/
theorem witness_LaunchRefuses_length :
    Config.AMAX + 1 < (List.replicate (Config.AMAX + 2) (0 : Int)).length := by simp

/-- HostSeesTheEndOfTheRun, FaultRecordHoldsCodeAndPayload: a halted state that has the invariant. -/
theorem witness_Inv_halted : (img [99]).halt.Inv ∧ (img [99]).halt.status = .halted := by
  refine ⟨⟨by decide, fun a h => ?_, by decide, by decide, by decide, fun c h => ?_, fun _ => rfl, fun h => ?_⟩, rfl⟩
  · have h0 : (img [99]).halt.mem = [(0, 99)] := by decide
    have h1 : (img [99]).halt.extent = 1 := by decide
    rw [h1] at h
    simp only [h0, Memory.read]
    rw [if_neg (by omega)]
  · cases h
  · exact absurd rfl h

/-- HostSeesTheEndOfTheRun: a faulted state that has the invariant. -/
theorem witness_Inv_faulted :
    (faultedWith (img [98]) (.unknownOpcode 98 0)).Inv ∧
      (faultedWith (img [98]) (.unknownOpcode 98 0)).status = .faulted := by
  refine ⟨⟨by decide, fun a h => ?_, by decide, by decide, by decide, fun c h => ?_, fun h => ?_, fun _ => rfl⟩, rfl⟩
  · have h0 : (faultedWith (img [98]) (.unknownOpcode 98 0)).mem = [(0, 98)] := by decide
    have h1 : (faultedWith (img [98]) (.unknownOpcode 98 0)).extent = 1 := by decide
    rw [h1] at h
    simp only [h0, Memory.read]
    rw [if_neg (by omega)]
  · cases h
    decide
  · exact absurd h (by decide)

/-- EveryStepKeepsTheInvariant: a running state that has the invariant and takes a step. -/
theorem witness_EveryStepKeepsTheInvariant : (img [99]).Inv ∧ ∃ t, step (img [99]) = .next t := by
  refine ⟨⟨by decide, fun a h => ?_, by decide, by decide, by decide, fun c h => ?_, fun h => ?_, fun _ => rfl⟩, ⟨_, rfl⟩⟩
  · have h0 : (img [99]).mem = [(0, 99)] := by decide
    have h1 : (img [99]).extent = 1 := by decide
    rw [h1] at h
    simp only [h0, Memory.read]
    rw [if_neg (by omega)]
  · cases h
  · exact absurd h (by decide)

/-- MemWriteStoresGrowsAndZeroFills: nothing beyond the extent, and an address between it and one written. -/
theorem witness_MemWriteStoresGrowsAndZeroFills :
    (∀ b, (img [99]).extent ≤ b → wordAt (img [99]) b = 0) ∧ (img [99]).extent ≤ 1 ∧ 1 < Config.AMAX := by
  refine ⟨fun b h => ?_, by decide, by decide⟩
  have h0 : (img [99]).mem = [(0, 99)] := by decide
  have h1 : (img [99]).extent = 1 := by decide
  rw [h1] at h
  simp only [wordAt, h0, Memory.read]
  rw [if_neg (by omega)]
  rfl

/-- CanonicalMemoryIsDeterminedByItsReads: a store with an entry at each end of the address space. -/
theorem witness_CanonicalMemoryIsDeterminedByItsReads :
    Memory.wf ([(0, -1), (Config.AMAX, 5)] : Memory) = true ∧
      ∀ a, Memory.read ([(0, -1), (Config.AMAX, 5)] : Memory) a =
        Memory.read (Memory.write ([(0, -1)] : Memory) Config.AMAX 5) a :=
  ⟨by decide, fun _ => rfl⟩

/-! ### Witnesses: encoding -/

/-- DecodeReadsTheDecimalFields: an opcode with digits above the fields, and the largest digits. -/
theorem witness_DecodeReadsTheDecimalFields :
    (2301101 : Word).toInt =
        ((1 : Nat) : Int) + 100 * ((1 : Nat) : Int) + 1000 * ((1 : Nat) : Int) + 10000 * ((0 : Nat) : Int) +
          100000 * ((23 : Nat) : Int) ∧
      ModeOf 1 .immediate ∧ ModeOf 0 .position ∧
      Selects .immediate .immediate .position 1 (.add .immediate .immediate .position) ∧
      (99999 : Word).toInt =
        ((99 : Nat) : Int) + 100 * ((9 : Nat) : Int) + 1000 * ((9 : Nat) : Int) + 10000 * ((9 : Nat) : Int) +
          100000 * ((0 : Nat) : Int) ∧
      ModeOf 9 (.unknown 9) ∧ Selects (.unknown 9) (.unknown 9) (.unknown 9) 99 .halt :=
  ⟨by decide, .immediate, .position, .add, by decide, .unknown 9 (by decide) (by decide), .halt⟩

/-- DecodeReadsTheDecimalFields: the opcodes next to those of the map select nothing. -/
theorem witness_DecodeReadsTheDecimalFields_none :
    (98 : Word).toInt =
        ((98 : Nat) : Int) + 100 * ((0 : Nat) : Int) + 1000 * ((0 : Nat) : Int) + 10000 * ((0 : Nat) : Int) +
          100000 * ((0 : Nat) : Int) ∧
      (∀ i, ¬Selects .position .position .position 98 i) ∧ (∀ i, ¬Selects .position .position .position 0 i) ∧
      ∀ i, ¬Selects .position .position .position 10 i :=
  ⟨by decide, fun _ h => (nomatch h), fun _ h => (nomatch h), fun _ h => (nomatch h)⟩

/-- DecodeInvertsEncode: every mode at its largest digit. -/
theorem witness_DecodeInvertsEncode :
    (Instr.eq (.unknown 9) (.unknown 9) (.unknown 9)).wf = true ∧ (Instr.add (.unknown 3) .relative .immediate).wf = true := by
  decide

/-- CanonicalWordIsTheLeastEncoding: the largest word, and a HALT with junk digits. -/
theorem witness_CanonicalWordIsTheLeastEncoding :
    decode 9223372036854775807 = .ok (.lt (.unknown 8) (.unknown 5) (.unknown 7)) ∧ decode 12399 = .ok .halt := by
  decide

/-- AssembledStatementIsFetchedBack: a statement that fills the last four addresses. -/
theorem witness_AssembledStatementIsFetchedBack :
    (Statement.add (.relative (-2)) (.immediate 7) (.position 3)).instr =
        some (.add .relative .immediate .position, [-2, 7, 3]) ∧
      ∀ (j : Nat) (h : j < (Statement.add (.relative (-2)) (.immediate 7) (.position 3)).words.length),
        (top 3 [1201, -2, 7, 3]).pc.val + j ≤ Config.AMAX ∧
          Memory.read (top 3 [1201, -2, 7, 3]).mem ((top 3 [1201, -2, 7, 3]).pc.val + j) =
            (Statement.add (.relative (-2)) (.immediate 7) (.position 3)).words[j] := by decide

/-- AssembledStatementIsFetchedBack: a statement without operands. -/
theorem witness_AssembledStatementIsFetchedBack_halt :
    Statement.halt.instr = some (.halt, []) ∧
      ∀ (j : Nat) (h : j < Statement.halt.words.length),
        (top 0 [99]).pc.val + j ≤ Config.AMAX ∧
          Memory.read (top 0 [99]).mem ((top 0 [99]).pc.val + j) = Statement.halt.words[j] := by decide

/-! ### Witnesses: parameters -/

/-- ReadParameterResolvesAsStated: each mode, with the parameter word at the largest address. -/
theorem witness_ReadsAs :
    ReadsAs (top 1 [4, 9223372036854775807]) 1 .position 9223372036854775807 ∧
      ReadsAs (top 1 [104, -9223372036854775808]) 1 .immediate (-9223372036854775808) ∧
      ReadsAs { top 1 [204, -2] with rb := 2 } 1 .relative 0 :=
  ⟨.position (by decide) (by decide) (by decide), .immediate (by decide) (by decide),
    .relative (by decide) (by decide) (by decide) (by decide)⟩

/-- WriteTargetResolvesAsStated: each mode, at the two ends of the address space. -/
theorem witness_Targets :
    Targets (img [3, 0]) 1 .position 0 ∧ Targets (img [3, 9223372036854775807]) 1 .position 9223372036854775807 ∧
      Targets (imgRb (-2) [203, 2]) 1 .relative 0 ∧
      Targets (imgRb 9223372036854775806 [203, 1]) 1 .relative 9223372036854775807 :=
  ⟨.position (by decide) (by decide), .position (by decide) (by decide), .relative (by decide) (by decide) (by decide),
    .relative (by decide) (by decide) (by decide)⟩

/-- Each way to fault on an address. -/
theorem witness_AddressFaults :
    AddressFaults (top 0 [4]) 1 .position .overflow ∧ AddressFaults (top 0 [204]) 1 .relative .overflow ∧
      AddressFaults (imgRb 9223372036854775807 [204, 1]) 1 .relative .overflow ∧
      AddressFaults (imgRb (-9223372036854775808) [204, -1]) 1 .relative .overflow ∧
      AddressFaults (img [4, -1]) 1 .position .negativeAddress ∧
      AddressFaults (imgRb (-3) [204, 2]) 1 .relative .negativeAddress :=
  ⟨.positionBeyond (by decide), .relativeBeyond (by decide), .sumOutside (by decide) (by decide),
    .sumOutside (by decide) (by decide), .positionNegative (by decide) (by decide),
    .relativeNegative (by decide) (by decide) (by decide)⟩

/-- The other ways in which a read parameter or a write target faults. -/
theorem witness_ReadFaults_TargetFaults :
    ReadFaults (img [304, 0]) 1 (.unknown 3) (.unknownParameterMode 3) ∧ ReadFaults (top 0 [104]) 1 .immediate .overflow ∧
      TargetFaults (img [903, 0]) 1 (.unknown 9) (.unknownParameterMode 9) ∧
      TargetFaults (img [103, 0]) 1 .immediate .unsupportedWriteMode :=
  ⟨.unknownMode 3, .immediateBeyond (by decide), .unknownMode 9, .immediate⟩

/-- ImmediateReadIsModeIndependent: two states with another base, another memory elsewhere and another output. -/
theorem witness_ImmediateReadIsModeIndependent :
    (img [104, 7, 99]).pc.val + 1 < Config.AMAX + 1 ∧
      ({ imgRb 5 [204, 7, 1] with out := [1] } : State).pc = (img [104, 7, 99]).pc ∧
      Memory.read ({ imgRb 5 [204, 7, 1] with out := [1] } : State).mem ((img [104, 7, 99]).pc.val + 1) =
        Memory.read (img [104, 7, 99]).mem ((img [104, 7, 99]).pc.val + 1) ∧
      (imgRb 5 [204, 7, 1]).mem ≠ (img [104, 7, 99]).mem := by decide

/-! ### Witnesses: ADD, MUL, LT, EQ (AddStoresTheSum, MulStoresTheProduct, LtStoresTheSignedOrder, EqStoresTheEquality) -/

/-- The encoding clause: well-formed modes, the largest digit among them. -/
theorem witness_Alu_encoding :
    (Mode.unknown 9).wf = true ∧ Mode.relative.wf = true ∧ Mode.immediate.wf = true ∧ Mode.position.wf = true := by decide

/-- The completion clause (V-A1), for all four results. -/
theorem witness_Alu_completes :
    ThreeParams (img [1, 5, 6, 7, 99, 20, 22]) .position .position .position 20 22 7 ∧ InIntW (20 + 22) ∧
      InIntW (20 * 22) ∧ InIntW (if (20 : Int) < 22 then 1 else 0) ∧ InIntW (if (20 : Int) = 22 then 1 else 0) ∧
      (img [1, 5, 6, 7, 99, 20, 22]).pc.val + 4 ≤ Config.AMAX :=
  ⟨⟨.position (by decide) (by decide) (by decide), .position (by decide) (by decide) (by decide),
    .position (by decide) (by decide)⟩, by decide, by decide, by decide, by decide, by decide⟩

/-- The completion clause where the advance ends at the largest address and the result is the largest word. -/
theorem witness_Alu_completes_at_the_top :
    ThreeParams (top 4 [1101, 9223372036854775806, 1, 0]) .immediate .immediate .position 9223372036854775806 1 0 ∧
      InIntW (9223372036854775806 + 1) ∧ InIntW (9223372036854775806 * 1) ∧
      (top 4 [1101, 9223372036854775806, 1, 0]).pc.val + 4 = Config.AMAX :=
  ⟨⟨.immediate (by decide) (by decide), .immediate (by decide) (by decide), .position (by decide) (by decide)⟩,
    by decide, by decide, by decide⟩

/-- The completion clause in Relative mode, all three (V-A3). -/
theorem witness_Alu_completes_relative :
    ThreeParams (imgRb 10 [22201, 1, 2, 3, 99, 0, 0, 0, 0, 0, 0, 10, 20]) .relative .relative .relative 10 20 13 ∧
      InIntW (10 + 20) ∧ InIntW (10 * 20) :=
  ⟨⟨.relative (by decide) (by decide) (by decide) (by decide), .relative (by decide) (by decide) (by decide) (by decide),
    .relative (by decide) (by decide) (by decide)⟩, by decide, by decide⟩

/-- The parameter fault clause: a first fault at parameter 1, at parameter 2, at parameter 3. -/
theorem witness_Alu_faults :
    ThreeParamsFault (img [301, 0, 0, 0]) (.unknown 3) .position .position (.unknownParameterMode 3) ∧
      ThreeParamsFault (img [101, 1, -1, 0]) .immediate .position .position .negativeAddress ∧
      ThreeParamsFault (img [11101, 1, 2, 3]) .immediate .immediate .immediate .unsupportedWriteMode :=
  ⟨.inl (.unknownMode 3),
    .inr (.inl ⟨1, .immediate (by decide) (by decide), .address (.positionNegative (by decide) (by decide))⟩),
    .inr (.inr ⟨1, 2, .immediate (by decide) (by decide), .immediate (by decide) (by decide), .immediate⟩)⟩

/-- The result fault clause of ADD (V-A6) and of MUL (V-A12). -/
theorem witness_Alu_overflow :
    ThreeParams (img [1101, 9223372036854775807, 1, 5, 99]) .immediate .immediate .position 9223372036854775807 1 5 ∧
      ¬InIntW (9223372036854775807 + 1) ∧
      ThreeParams (img [1102, 3037000500, 3037000500, 5, 99]) .immediate .immediate .position 3037000500 3037000500 5 ∧
      ¬InIntW (3037000500 * 3037000500) :=
  ⟨⟨.immediate (by decide) (by decide), .immediate (by decide) (by decide), .position (by decide) (by decide)⟩,
    by decide,
    ⟨.immediate (by decide) (by decide), .immediate (by decide) (by decide), .position (by decide) (by decide)⟩,
    by decide⟩

/-- The advance fault clause: the instruction fills the last four addresses. -/
theorem witness_Alu_advance :
    ThreeParams (top 3 [1101, 1, 2, 0]) .immediate .immediate .position 1 2 0 ∧
      Config.AMAX < (top 3 [1101, 1, 2, 0]).pc.val + 4 :=
  ⟨⟨.immediate (by decide) (by decide), .immediate (by decide) (by decide), .position (by decide) (by decide)⟩, by decide⟩

/-! ### Witnesses: IN, OUT -/

/-- InStoresTheNextInput, completion: an instruction that ends just below the largest address. -/
theorem witness_In_completes :
    0 < (top 2 [3, 9223372036854775807] [42]).input.length ∧ (top 2 [3, 9223372036854775807] [42]).inCursor = 0 ∧
      Targets (top 2 [3, 9223372036854775807] [42]) 1 .position 9223372036854775807 ∧
      (top 2 [3, 9223372036854775807] [42]).pc.val + 2 = Config.AMAX :=
  ⟨by decide, by decide, .position (by decide) (by decide), by decide⟩

/-- InStoresTheNextInput, the three faults: the destination, the input, the advance. -/
theorem witness_In_faults :
    TargetFaults (img [103, 0, 99]) 1 .immediate .unsupportedWriteMode ∧
      (Targets (img [3, 0, 99]) 1 .position 0 ∧ (img [3, 0, 99]).input.length ≤ (img [3, 0, 99]).inCursor) ∧
      (Targets (top 1 [3, 0] [42]) 1 .position 0 ∧ (top 1 [3, 0] [42]).inCursor < (top 1 [3, 0] [42]).input.length ∧
        Config.AMAX < (top 1 [3, 0] [42]).pc.val + 2) :=
  ⟨.immediate, ⟨.position (by decide) (by decide), by decide⟩, ⟨.position (by decide) (by decide), by decide, by decide⟩⟩

/-- OutAppendsTheOperand: completion just below the largest address, a parameter fault, and the advance fault. -/
theorem witness_OutAppendsTheOperand :
    (ReadsAs (top 2 [104, -7]) 1 .immediate (-7) ∧ (top 2 [104, -7]).pc.val + 2 = Config.AMAX) ∧
      ReadFaults (img [4, -1]) 1 .position .negativeAddress ∧
      (ReadsAs (top 1 [104, -7]) 1 .immediate (-7) ∧ Config.AMAX < (top 1 [104, -7]).pc.val + 2) :=
  ⟨⟨.immediate (by decide) (by decide), by decide⟩, .address (.positionNegative (by decide) (by decide)),
    ⟨.immediate (by decide) (by decide), by decide⟩⟩

/-! ### Witnesses: JT, JF -/

/-- JtJumpsWhenNonZero, taken: to address 0 and to the largest address, with a negative condition. -/
theorem witness_Jt_taken :
    (ReadsAs (img [1105, -1, 0]) 1 .immediate (-1) ∧ ReadsAs (img [1105, -1, 0]) 2 .immediate 0 ∧ (-1 : Int) ≠ 0) ∧
      ReadsAs (img [1105, 1, 9223372036854775807]) 1 .immediate 1 ∧
      ReadsAs (img [1105, 1, 9223372036854775807]) 2 .immediate 9223372036854775807 :=
  ⟨⟨.immediate (by decide) (by decide), .immediate (by decide) (by decide), by decide⟩,
    .immediate (by decide) (by decide), .immediate (by decide) (by decide)⟩

/-- JtJumpsWhenNonZero, not taken: falling through to the largest address, and beyond it. -/
theorem witness_Jt_untaken :
    (ReadsAs (top 3 [1105, 0, -1]) 1 .immediate 0 ∧ ReadsAs (top 3 [1105, 0, -1]) 2 .immediate (-1) ∧ ¬(0 : Int) ≠ 0 ∧
        (top 3 [1105, 0, -1]).pc.val + 3 = Config.AMAX) ∧
      (ReadsAs (top 2 [1105, 0, 4]) 1 .immediate 0 ∧ ReadsAs (top 2 [1105, 0, 4]) 2 .immediate 4 ∧
        Config.AMAX < (top 2 [1105, 0, 4]).pc.val + 3) :=
  ⟨⟨.immediate (by decide) (by decide), .immediate (by decide) (by decide), by decide, by decide⟩,
    .immediate (by decide) (by decide), .immediate (by decide) (by decide), by decide⟩

/-- JtJumpsWhenNonZero, JfJumpsWhenZero: a fault at parameter 1, at parameter 2, and at a taken negative target of
each. -/
theorem witness_Jump_faults :
    TwoParamsFault (img [905, 0, 0]) (.unknown 9) .position (.unknownParameterMode 9) ∧
      TwoParamsFault (img [3105, 0, 0, 99]) .immediate (.unknown 3) (.unknownParameterMode 3) ∧
      (ReadsAs (img [1105, 1, -1]) 1 .immediate 1 ∧ ReadsAs (img [1105, 1, -1]) 2 .immediate (-1)) ∧
      (ReadsAs (img [1106, 0, -1]) 1 .immediate 0 ∧ ReadsAs (img [1106, 0, -1]) 2 .immediate (-1)) :=
  ⟨.inl (.unknownMode 9), .inr ⟨0, .immediate (by decide) (by decide), .unknownMode 3⟩,
    ⟨.immediate (by decide) (by decide), .immediate (by decide) (by decide)⟩,
    ⟨.immediate (by decide) (by decide), .immediate (by decide) (by decide)⟩⟩

/-- JfJumpsWhenZero: taken to the largest address; not taken, to the largest address and beyond it. -/
theorem witness_Jf_taken_and_untaken :
    (ReadsAs (img [1106, 0, 9223372036854775807]) 1 .immediate 0 ∧
        ReadsAs (img [1106, 0, 9223372036854775807]) 2 .immediate 9223372036854775807) ∧
      (ReadsAs (top 3 [1106, 7, 4]) 1 .immediate 7 ∧ ReadsAs (top 3 [1106, 7, 4]) 2 .immediate 4 ∧ ¬(7 : Int) = 0 ∧
        (top 3 [1106, 7, 4]).pc.val + 3 = Config.AMAX) ∧
      (ReadsAs (top 2 [1106, 7, 4]) 1 .immediate 7 ∧ ReadsAs (top 2 [1106, 7, 4]) 2 .immediate 4 ∧
        Config.AMAX < (top 2 [1106, 7, 4]).pc.val + 3) :=
  ⟨⟨.immediate (by decide) (by decide), .immediate (by decide) (by decide)⟩,
    ⟨.immediate (by decide) (by decide), .immediate (by decide) (by decide), by decide, by decide⟩,
    .immediate (by decide) (by decide), .immediate (by decide) (by decide), by decide⟩

/-! ### Witnesses: ARB, HALT -/

/-- ArbAddsToTheRelativeBase: completion with the largest sum just below the largest address. -/
theorem witness_Arb_completes :
    ReadsAs { top 2 [109, 9223372036854775806] with rb := 1 } 1 .immediate 9223372036854775806 ∧
      InIntW ((1 : Word).toInt + 9223372036854775806) ∧
      ({ top 2 [109, 9223372036854775806] with rb := 1 } : State).pc.val + 2 = Config.AMAX :=
  ⟨.immediate (by decide) (by decide), by decide, by decide⟩

/-- ArbAddsToTheRelativeBase, the three faults: the parameter, the sum (V-R4), the advance. -/
theorem witness_Arb_faults :
    ReadFaults (imgRb (-3) [209, 2]) 1 .relative .negativeAddress ∧
      (ReadsAs (imgRb 9223372036854775807 [109, 1]) 1 .immediate 1 ∧
        ¬InIntW ((imgRb 9223372036854775807 [109, 1]).rb.toInt + 1)) ∧
      (ReadsAs (top 1 [109, 1]) 1 .immediate 1 ∧ Config.AMAX < (top 1 [109, 1]).pc.val + 2) :=
  ⟨.address (.relativeNegative (by decide) (by decide) (by decide)), ⟨.immediate (by decide) (by decide), by decide⟩,
    ⟨.immediate (by decide) (by decide), by decide⟩⟩

/-- HaltReturnsTheWordAtZero: the least and the greatest word that end in 99. -/
theorem witness_HaltReturnsTheWordAtZero :
    (0 ≤ (99 : Word).toInt ∧ (99 : Word).toInt % 100 = 99) ∧
      (0 ≤ (9223372036854775799 : Word).toInt ∧ (9223372036854775799 : Word).toInt % 100 = 99) := by decide

/-! ### Witnesses: the step -/

/-- StepRunsTheDecodedInstruction, one for each clause. -/
theorem witness_StepRunsTheDecodedInstruction :
    ((img [12399]).status = .running ∧ decode ((img [12399]).memRead (img [12399]).pc) = .ok .halt) ∧
      ((img [-199]).status = .running ∧
        decode ((img [-199]).memRead (img [-199]).pc) = .error (.unknownOpcode (-99))) ∧
      (img [99]).halt.status = .halted ∧ (faultedWith (img [0]) (.unknownOpcode 0 0)).status = .faulted := by decide

/-- PlacedWordIsRunNext: a table word that decodes, with the largest mode digits. -/
theorem witness_PlacedWordIsRunNext :
    decodeTableWord 64 99901 = some (.add (.unknown 9) (.unknown 9) (.unknown 9)) := by decide

/-- UnknownOpcodeIsRaisedAtDispatch: the opcodes beside the map, negative words, and a word of the map. -/
theorem witness_UnknownOpcodeIsRaisedAtDispatch :
    (0 ≤ wordAt (img [98]) 0 ∧ wordAt (img [98]) 0 % 100 ∉ [1, 2, 3, 4, 5, 6, 7, 8, 9, 99]) ∧
      (0 ≤ wordAt (img []) 0 ∧ wordAt (img []) 0 % 100 ∉ [1, 2, 3, 4, 5, 6, 7, 8, 9, 99]) ∧
      (wordAt (img [-9223372036854775808]) 0 < 0 ∧ wordAt (img [-1]) 0 < 0) ∧
      (0 ≤ wordAt (img [109, 1]) 0 ∧ wordAt (img [109, 1]) 0 % 100 ∈ [1, 2, 3, 4, 5, 6, 7, 8, 9, 99] ∧
        (img [109, 1]).fault = none) ∧
      (img [98]).status = .running := by decide

/-- FaultsArePrecise, EveryFaultHasItsCondition: a step that takes each of the six causes. -/
theorem witness_EveryFaultHasItsCondition :
    step (img [98]) = .next (faultedWith (img [98]) (.unknownOpcode 98 0)) ∧
      step (img [901, 0, 0, 0]) = .next (faultedWith (img [901, 0, 0, 0]) (.unknownParameterMode 9)) ∧
      step (img [11101, 1, 2, 3]) = .next (faultedWith (img [11101, 1, 2, 3]) .unsupportedWriteMode) ∧
      step (img [3, 0, 99]) = .next (faultedWith (img [3, 0, 99]) .inputExhausted) ∧
      step (img [1105, 1, -1]) = .next (faultedWith (img [1105, 1, -1]) .negativeAddress) ∧
      step (top 1 [104, 7]) = .next (faultedWith (top 1 [104, 7]) .overflow) :=
  ⟨rfl, rfl, rfl, rfl, rfl, rfl⟩

/-- EveryFaultHasItsCondition: further ways to a negative address and to an overflow (V-AG7, V-C8, V-AG18, V-A6, V-R4). -/
theorem witness_EveryFaultHasItsCondition_clauses :
    step (img [1, -1, 0, 0]) = .next (faultedWith (img [1, -1, 0, 0]) .negativeAddress) ∧
      UsesParam (.add .position .position .position) 1 .position ∧
      JumpsBelowZero (img [1105, 1, -1]) (.jt .immediate .immediate) ∧
      step (imgRb 9223372036854775807 [204, 1]) = .next (faultedWith (imgRb 9223372036854775807 [204, 1]) .overflow) ∧
      ResultOutside (img [1101, 9223372036854775807, 1, 5]) (.add .immediate .immediate .position) ∧
      ResultOutside (imgRb 9223372036854775807 [109, 1]) (.arb .immediate) :=
  ⟨rfl, ⟨by decide, rfl⟩, .jt (.immediate (by decide) rfl) (.immediate (by decide) rfl) (by decide) (by decide), rfl,
    .add ⟨.immediate (by decide) rfl, .immediate (by decide) rfl, .position (d := 5) (by decide) (by decide)⟩ (by decide),
    .arb (.immediate (by decide) rfl) (by decide)⟩

/-- PcAdvancesByTheLengthOrJumps: completed steps that advance, halt, and jump or fall through. -/
theorem witness_PcAdvancesByTheLengthOrJumps :
    (Runs (img [109, 1]) (.arb .immediate) ∧ ∃ t, step (img [109, 1]) = .next t ∧ t.status ≠ .faulted) ∧
      (Runs (img [99]) .halt ∧ ∃ t, step (img [99]) = .next t ∧ t.status ≠ .faulted) ∧
      (Runs (img [1105, 1, 4]) (.jt .immediate .immediate) ∧
        ∃ t, step (img [1105, 1, 4]) = .next t ∧ t.status ≠ .faulted) ∧
      (Runs (img [1106, 1, 4]) (.jf .immediate .immediate) ∧
        ∃ t, step (img [1106, 1, 4]) = .next t ∧ t.status ≠ .faulted) :=
  ⟨⟨⟨rfl, by decide⟩, _, rfl, by decide⟩, ⟨⟨rfl, by decide⟩, _, rfl, by decide⟩, ⟨⟨rfl, by decide⟩, _, rfl, by decide⟩,
    ⟨⟨rfl, by decide⟩, _, rfl, by decide⟩⟩

/-- EachElementHasItsWriters: steps that change each element. -/
theorem witness_EachElementHasItsWriters :
    (∃ t, step (img [109, 1]) = .next t ∧ t.rb ≠ (img [109, 1]).rb) ∧
      (∃ t, step (img [104, 1]) = .next t ∧ t.out ≠ (img [104, 1]).out) ∧
      (∃ t, step (img [3, 0] [5]) = .next t ∧ t.inCursor ≠ (img [3, 0] [5]).inCursor) ∧
      (∃ t, step (img [99]) = .next t ∧ t.retval ≠ (img [99]).retval ∧ t.status = .halted) ∧
      (∃ t, step (img [98]) = .next t ∧ t.fault ≠ (img [98]).fault) ∧
      ∃ t, step (img [1, 0, 0, 0]) = .next t ∧ wordAt t 0 ≠ wordAt (img [1, 0, 0, 0]) 0 :=
  ⟨⟨_, rfl, by decide⟩, ⟨_, rfl, by decide⟩, ⟨_, rfl, by decide⟩, ⟨_, rfl, by decide, by decide⟩, ⟨_, rfl, by decide⟩,
    ⟨_, rfl, by decide⟩⟩

/-! ### Witnesses: runs and dependence -/

/-- InvariantHoldsAfterLaunch, EveryReachableStateIsInvariant: a launch that is accepted. -/
theorem witness_launch_accepted : launch [3, 0, 99] [-5] = .next (img [3, 0, 99] [-5]) := rfl

/-- RunsAreMonotone, EveryReachableStateIsInvariant: a terminal state, and one that is not. -/
theorem witness_RunsAreMonotone : (img [99]).halt.status ≠ .running ∧ (runFor 0 (img [99])).status = .running := by decide

/-- ExtentIsNotReadByAnyInstruction, OutputIsNotReadByAnyInstruction: a running core. -/
theorem witness_running : (top 0 [99]).status = .running ∧ (img []).status = .running := by decide

/-- StepDependsOnlyOnTheWordsItReads: another memory that agrees on the three words a HALT at 2 reads. -/
theorem witness_StepDependsOnlyOnTheWordsItReads :
    ({ img [104, 7, 99] with pc := 2 } : State).status = .running ∧
      Memory.ofImage 0 [104, 55, 99, 6] ≠ ({ img [104, 7, 99] with pc := 2 } : State).mem ∧
      ∀ a : Addr, Access.Of.read a ∈ stepAccesses { img [104, 7, 99] with pc := 2 } →
        Memory.read (Memory.ofImage 0 [104, 55, 99, 6]) a.val =
          Memory.read ({ img [104, 7, 99] with pc := 2 } : State).mem a.val := by
  refine ⟨rfl, by decide, fun a h => ?_⟩
  have h0 : stepAccesses { img [104, 7, 99] with pc := 2 } = [.read 2, .read 0] := by decide
  rw [h0] at h
  simp only [List.mem_cons, Access.Of.read.injEq, List.not_mem_nil, or_false] at h
  rcases h with rfl | rfl <;> decide

/-- AccessesFollowTheTable: a completed step and a step that faults after reading its parameter. -/
theorem witness_AccessesFollowTheTable :
    (∃ t, step (img [1, 5, 6, 7, 99, 20, 22]) = .next t ∧ t.status ≠ .faulted) ∧
      Runs (img [1, 5, 6, 7, 99, 20, 22]) (.add .position .position .position) ∧
      ∃ t, step (img [1, -1, 0, 0]) = .next t ∧ t.status = .faulted :=
  ⟨⟨_, rfl, by decide⟩, ⟨rfl, by decide⟩, ⟨_, rfl, by decide⟩⟩

/-! ### Other word widths -/

/-- The reset state of a width for an image. -/
def imgAt (W : Nat) (image : List Int) (input : List Int := []) : State.Of W :=
  State.Of.boot (image.map Word.ofInt) (input.map Word.ofInt)

/-- R4, R5, R132: the sum 2^63 that overflows 64 bits is stored by 65-bit words. -/
theorem test_add_beyond_64_bits :
    step (img [1101, 9223372036854775807, 1, 5]) =
        .next (faultedWith (img [1101, 9223372036854775807, 1, 5]) .overflow) ∧
      (runAt 1 (imgAt 65 [1101, 9223372036854775807, 1, 5])).mem =
        Memory.ofImage 0 ([1101, 9223372036854775807, 1, 5, 0, 9223372036854775808].map Word.ofInt) ∧
      (runAt 1 (imgAt 65 [1101, 9223372036854775807, 1, 5])).status = .running :=
  ⟨rfl, by decide, by decide⟩

/-- R5, R9, R211: at 65 bits the range ends at 2^64 - 1 and -2^64; one further is refused by the host's port. -/
theorem test_range_of_65_bits :
    Config.AMAX 65 = 18446744073709551615 ∧ InIntW 18446744073709551615 65 ∧ InIntW (-18446744073709551616) 65 ∧
      firstOutside 65 [18446744073709551615, -18446744073709551616] = none ∧
      firstOutside 65 [18446744073709551616] = some 18446744073709551616 ∧
      firstOutside 65 [-18446744073709551617] = some (-18446744073709551617) := by decide

/-- EveryWidthHasItsRange: the least width and a wider one, at the ends of the range. -/
theorem witness_EveryWidthHasItsRange :
    (64 ≤ 64 ∧ InIntW 9223372036854775807 64 ∧ InIntW (-9223372036854775808) 64) ∧
      64 ≤ 65 ∧ InIntW 18446744073709551615 65 ∧ InIntW (-18446744073709551616) 65 := by decide

/-- EveryWidthKeepsTheInvariant: an accepted launch at 65 bits whose state has the invariant and takes a step. -/
theorem witness_EveryWidthKeepsTheInvariant :
    64 ≤ 65 ∧ launchAt 65 [99] [18446744073709551615] = .next (imgAt 65 [99] [18446744073709551615]) ∧
      (imgAt 65 [99] [18446744073709551615]).Inv ∧
      stepAt (imgAt 65 [99] [18446744073709551615]) = .next (imgAt 65 [99] [18446744073709551615]).halt := by
  refine ⟨by decide, rfl, ⟨rfl, fun a ha => ?_, by decide, by decide, by decide, by decide, by decide, by decide⟩, rfl⟩
  obtain ⟨b, rfl⟩ : ∃ b, a = b + 1 := ⟨a - 1, by have : 1 ≤ a := ha; omega⟩
  rfl

/-- WiderWordsTakeTheSameStep: states of the same values at 64 and at 65 bits, and a step without overflow. -/
theorem witness_WiderWordsTakeTheSameStep :
    64 ≤ 64 ∧ 64 ≤ 65 ∧ SameValues (imgAt 64 [104, -7]) (imgAt 65 [104, -7]) ∧
      stepAt (imgAt 64 [104, -7]) = .next (runAt 1 (imgAt 64 [104, -7])) ∧ NoOverflow (runAt 1 (imgAt 64 [104, -7])) ∧
      (runAt 1 (imgAt 64 [104, -7])).out = [-7] := by
  refine ⟨by decide, by decide, ⟨fun a => ?_, rfl, rfl, rfl, rfl, rfl, rfl, rfl, rfl, rfl⟩, rfl, by decide, by decide⟩
  match a with
  | 0 => decide
  | 1 => decide
  | _ + 2 => rfl

/-- WiderWordsTakeTheSameStep: a step that faults otherwise is no overflow either. -/
theorem witness_WiderWordsTakeTheSameStep_fault :
    stepAt (imgAt 64 [98]) = .next ((imgAt 64 [98]).raise (.unknownOpcode 98 0)) ∧
      NoOverflow ((imgAt 64 [98]).raise (.unknownOpcode 98 0)) := ⟨rfl, by decide⟩

/-- EveryWidthGivesTheSameRun: a run of two steps at this hardware that halts without overflow. -/
theorem witness_EveryWidthGivesTheSameRun :
    64 ≤ 128 ∧ launch [104, -7, 99] [] = .next (img [104, -7, 99]) ∧ NoOverflow (runFor 2 (img [104, -7, 99])) ∧
      (runFor 2 (img [104, -7, 99])).status = .halted :=
  ⟨by decide, rfl, by decide, by decide⟩

/-! ### Witnesses: zero-extension (R56) -/

/-- UnwrittenWordsReadZeroAndWritesZeroExtend: a launch and a step that writes address 5, just beyond its image, and
not address 6. -/
theorem witness_UnwrittenWords :
    launch [1101, 2, 3, 5, 99] [] = .next (img [1101, 2, 3, 5, 99]) ∧
      Writes (runFor 0 (img [1101, 2, 3, 5, 99])) 5 ∧
      ∀ k, k < 1 → ¬Writes (runFor k (img [1101, 2, 3, 5, 99])) 6 := by
  have hr : Runs (img [1101, 2, 3, 5, 99]) (.add .immediate .immediate .position) := ⟨rfl, by decide⟩
  refine ⟨rfl, ⟨_, _, _, hr, rfl, by decide, .add _ _, .position (by decide) (by decide)⟩, fun k hk => ?_⟩
  obtain rfl : k = 0 := by omega
  rintro ⟨i, m, -, hi, -, -, hT, hd⟩
  obtain rfl : Instr.add .immediate .immediate .position = i := Except.ok.inj (hr.2.symm.trans hi.2)
  cases hT
  cases hd with
  | position _ h => exact absurd h (by decide)

/-- UnwrittenWordsReadZeroAndWritesZeroExtend: a state with the invariant, and an address above its extent with
one between. -/
theorem witness_WritesZeroExtend : (img [99]).Inv ∧ (img [99]).extent ≤ 1 ∧ 1 < Config.AMAX := by
  refine ⟨⟨rfl, fun a ha => ?_, by decide, by decide, by decide, by decide, by decide, by decide⟩, by decide, by decide⟩
  obtain ⟨b, rfl⟩ : ∃ b, a = b + 1 := ⟨a - 1, by have : 1 ≤ a := ha; omega⟩
  rfl

end Sys2Proof.Tests
end

/-! SUPPORT. Launches: when the host's image and input are accepted, and what they leave (R36, R211). -/

namespace Sys2Proof.Claims

open Sys2Proof.Machine

variable {W : Nat}

/-- An image and an input that the host may offer are accepted, at any width (R211). -/
theorem launchAt_eq_boot {image input : List Int} (himage : ∀ v ∈ image, InIntW v W)
    (hinput : ∀ v ∈ input, InIntW v W) (hlen : image.length ≤ Config.AMAX W + 1) :
    launchAt W image input = .next (State.Of.boot (image.map Word.ofInt) (input.map Word.ofInt)) := by
  have hnone : firstOutside W (image ++ input) = none :=
    firstOutside_eq_none.2 (List.forall_mem_append.2 ⟨himage, hinput⟩)
  simp only [launchAt, hnone, if_pos hlen]

/-- Storing values of `Int_W` as words loses none of them (R4, R5). -/
theorem map_toInt_map_ofInt [NeZero W] {vs : List Int} (h : ∀ v ∈ vs, InIntW v W) :
    (vs.map (Word.ofInt (W := W))).map BitVec.toInt = vs := by
  rw [List.map_map]
  exact (List.map_congr_left fun v hv => toInt_ofInt (h v hv)).trans (List.map_id' vs)

/-- Memory after reset: the image from address 0 upwards, and 0 behind it (R36, R53). -/
theorem wordAt_boot {image : List Int} (h : ∀ v ∈ image, InIntW v) (input : List Word) (a : Nat) :
    wordAt (State.Of.boot (image.map Word.ofInt) input) a = image[a]?.getD 0 := by
  have hread : Memory.read (Memory.ofImage 0 (image.map Word.ofInt)) a =
      ((image.map Word.ofInt)[a]?).getD (0 : Word) := by
    simpa only [Nat.zero_add] using Memory.read_ofImage (image.map (Word.ofInt (W := Config.W))) 0 a
  rw [wordAt, State.Of.boot_mem, hread, List.getElem?_map]
  cases hv : image[a]? with
  | none => rfl
  | some v => exact toInt_ofInt (h v (List.mem_of_getElem? hv))

/-- Settles O2: the launch is accepted and answers the boot state, whose words are the image's, then 0. -/
theorem launchLeavesTheResetValues : Obligations.LaunchLeavesTheResetValues := by
  intro image input himage hinput hlen
  refine ⟨_, launchAt_eq_boot himage hinput hlen, fun a ha => ?inside, fun a ha => ?behind,
    List.length_map _, rfl, rfl, rfl, rfl, map_toInt_map_ofInt hinput, rfl, rfl, rfl⟩
  case inside => rw [wordAt_boot himage, List.getElem?_eq_getElem ha, Option.getD_some]
  case behind => rw [wordAt_boot himage, List.getElem?_eq_none ha, Option.getD_none]

end Sys2Proof.Claims

/-! SUPPORT. Memory in the claims' terms: what a write leaves at each address (R54, R56), which address a step
writes (R116), and what a run that does not write an address leaves there. -/

namespace Sys2Proof.Claims

open Sys2Proof.Machine

/-! ### One write -/

section

variable (s : State) (a : Addr) (v : Word)

theorem wordAt_memWrite_self : wordAt (s.memWrite a v) a.val = v.toInt := by
  rw [wordAt, State.Of.memWrite_mem, Memory.read_write_self]

theorem wordAt_memWrite_ne {b : Nat} (hb : b ≠ a.val) : wordAt (s.memWrite a v) b = wordAt s b := by
  rw [wordAt, State.Of.memWrite_mem, Memory.read_write_ne _ v hb, wordAt]

/-- The grown extent in the form of R54. -/
theorem extent_memWrite_eq_max : (s.memWrite a v).extent = max s.extent (a.val + 1) := by
  rw [State.Of.memWrite_extent]
  split <;> omega

/-- A write stores its value, keeps every other address and grows `extent` just enough (R54). -/
theorem storedAt_memWrite : StoredAt s (s.memWrite a v) a.val v.toInt :=
  ⟨wordAt_memWrite_self s a v, fun _ => wordAt_memWrite_ne s a v, extent_memWrite_eq_max s a v⟩

variable {s}

/-- Where nothing beyond the old extent is written, a write leaves 0 there, but for its own address (R56). -/
theorem wordAt_memWrite_beyond (h : ∀ b, s.extent ≤ b → wordAt s b = 0) {b : Nat} (hb : s.extent ≤ b)
    (hne : b ≠ a.val) : wordAt (s.memWrite a v) b = 0 :=
  (wordAt_memWrite_ne s a v hne).trans (h b hb)

end

/-- Settles O6: each address is the one written, for which the write rule says what it reads, or another one, which
the write leaves alone. -/
theorem memWriteStoresGrowsAndZeroFills : Obligations.MemWriteStoresGrowsAndZeroFills := by
  intro s a v hzero
  refine ⟨storedAt_memWrite s a v, State.Of.memRead_memWrite_self s a v, fun b hb hlt => ?between,
    fun b hb => ?beyond, rfl, rfl, ⟨rfl, rfl, rfl⟩, ⟨rfl, rfl⟩, rfl⟩
  case between => exact wordAt_memWrite_beyond a v hzero hb (Nat.ne_of_lt hlt)
  case beyond =>
    have hold : s.extent ≤ b := (State.Of.extent_le_memWrite s a v).trans hb
    have hnew : a.val < b := (State.Of.lt_extent_memWrite s a v).trans_le hb
    exact wordAt_memWrite_beyond a v hzero hold (Nat.ne_of_gt hnew)

/-! ### The address a step writes -/

/-- The raw parameter in the claims' terms (R113). -/
theorem raw_eq_ok_iff_param {s : State} {k : Nat} {w : Word} :
    raw s k = .ok w ↔ s.pc.val + k ≤ Config.AMAX ∧ w.toInt = param s k := by
  rw [raw_eq_ok]
  constructor
  · rintro ⟨p, hp, rfl⟩
    exact ⟨hp ▸ Nat.le_of_lt_succ p.isLt, by rw [param, ← hp]; rfl⟩
  · rintro ⟨hreach, hw⟩
    exact ⟨⟨s.pc.val + k, Nat.lt_succ_of_le hreach⟩, rfl, BitVec.eq_of_toInt_eq hw⟩

/-- What the model resolves a write target to is the address that the parameter names (R116). -/
theorem targets_of_wr_eq_ok {s : State} {k : Nat} {m : Mode} {d : Addr} (h : wr s k m = .ok d) :
    Targets s k m d.val := by
  cases m with
  | unknown | immediate => cases h
  | position =>
    obtain ⟨w, hraw, hea⟩ := paramAddr_eq_ok.1 h
    obtain ⟨hreach, hw⟩ := raw_eq_ok_iff_param.1 hraw
    exact .position hreach ((ea_position_eq_ok.1 hea).symm.trans hw)
  | relative =>
    obtain ⟨w, hraw, hea⟩ := paramAddr_eq_ok.1 h
    obtain ⟨hreach, hw⟩ := raw_eq_ok_iff_param.1 hraw
    obtain ⟨hin, hsum⟩ := ea_relative_eq_ok.1 hea
    rw [hw] at hin hsum
    exact .relative hreach hin hsum.symm

/-- An instruction leaves the store as it was, or completes with the single write that its write target names
(R116, R120). -/
theorem exec_mem_cases {i : Instr} {s t : State} (h : exec i s = .next t) :
    t.mem = s.mem ∨ ∃ m d v, HasTarget m i ∧ Targets s (usedModes i).length m d ∧
      t.mem = Memory.write s.mem d v ∧ t.status = s.status := by
  have alu : ∀ {op ma mb md}, aluInstr op ma mb md s = .next t → t.mem = s.mem ∨
      ∃ d v, Targets s 3 md d ∧ t.mem = Memory.write s.mem d v ∧ t.status = s.status := by
    intro op ma mb md h
    rcases aluInstr_cases h with ⟨c, rfl⟩ | ⟨_, _, d, r, _, -, -, hd, -, -, rfl⟩
    · exact .inl rfl
    · exact .inr ⟨d.val, r, targets_of_wr_eq_ok hd, rfl, rfl⟩
  cases i with
  | add a b md => exact (alu h).imp_right fun ⟨d, v, hw⟩ => ⟨md, d, v, .add a b, hw⟩
  | mul a b md => exact (alu h).imp_right fun ⟨d, v, hw⟩ => ⟨md, d, v, .mul a b, hw⟩
  | lt a b md => exact (alu h).imp_right fun ⟨d, v, hw⟩ => ⟨md, d, v, .lt a b, hw⟩
  | eq a b md => exact (alu h).imp_right fun ⟨d, v, hw⟩ => ⟨md, d, v, .eq a b, hw⟩
  | inp md =>
    rcases execIn_cases h with ⟨c, rfl⟩ | ⟨d, v, _, hd, -, -, rfl⟩
    · exact .inl rfl
    · exact .inr ⟨md, d.val, v, .inp, targets_of_wr_eq_ok hd, rfl, rfl⟩
  | out ma => rcases execOut_cases h with ⟨_, rfl⟩ | ⟨_, _, -, -, rfl⟩ <;> exact .inl rfl
  | arb ma => rcases execArb_cases h with ⟨_, rfl⟩ | ⟨_, _, _, -, -, -, rfl⟩ <;> exact .inl rfl
  | jt ma mb => rcases execJt_cases h with ⟨_, rfl⟩ | ⟨_, _, _, -, -, rfl, -⟩ <;> exact .inl rfl
  | jf ma mb => rcases execJf_cases h with ⟨_, rfl⟩ | ⟨_, _, _, -, -, rfl, -⟩ <;> exact .inl rfl
  | halt =>
    obtain rfl : s.halt = t := Host.Outcome.next.inj h
    exact .inl rfl

/-- A step leaves alone every address that it does not write (R54, R116). -/
theorem step_read_of_not_writes {s t : State} {a : Nat} (h : step s = .next t) (ha : ¬Writes s a) :
    Memory.read t.mem a = Memory.read s.mem a := by
  obtain ⟨hrun, ⟨i, hi, hexec⟩ | ⟨op, -, rfl⟩⟩ := step_cases h
  · rcases exec_mem_cases hexec with hmem | ⟨m, d, v, hm, hd, hmem, hstatus⟩
    · rw [hmem]
    · have hok : t.status ≠ .faulted := by rw [hstatus, hrun]; decide
      have hne : a ≠ d := fun had => ha ⟨i, m, t, ⟨hrun, hi⟩, h, hok, hm, had ▸ hd⟩
      rw [hmem, Memory.read_write_ne _ v hne]
  · rfl

/-- A run leaves alone every address that none of its steps writes. -/
theorem runFor_read_of_not_writes {s : State} {n a : Nat} (ha : ∀ k, k < n → ¬Writes (runFor k s) a) :
    Memory.read (runFor n s).mem a = Memory.read s.mem a := by
  induction n generalizing s with
  | zero => rfl
  | succ n ih =>
    by_cases hnext : ∃ t, step s = .next t
    · obtain ⟨t, ht⟩ := hnext
      have hrun : ∀ k, runFor (k + 1) s = runFor k t := fun _ => runWith_of_next ht
      have hlater : ∀ k, k < n → ¬Writes (runFor k t) a := fun k hk => hrun k ▸ ha (k + 1) (Nat.succ_lt_succ hk)
      calc Memory.read (runFor (n + 1) s).mem a
        _ = Memory.read (runFor n t).mem a := by rw [hrun]
        _ = Memory.read t.mem a := ih hlater
        _ = Memory.read s.mem a := step_read_of_not_writes ht (ha 0 n.succ_pos)
    · rw [runFor, runWith_of_no_next (not_exists.1 hnext)]

/-! ### Launches and zero-extension -/

/-- An accepted launch answers the boot state of its image and input (R210). -/
theorem eq_boot_of_launchAt_eq_next {W : Nat} {image input : List Int} {s : State.Of W}
    (h : launchAt W image input = .next s) : s = State.Of.boot (image.map Word.ofInt) (input.map Word.ofInt) := by
  unfold launchAt at h
  split at h
  · cases h
  · split at h
    · exact (Host.Outcome.next.inj h).symm
    · cases h

/-- Memory after reset reads 0 beyond the image (R36, R53). -/
theorem read_boot_of_length_le {W : Nat} {image : List (Word W)} (input : List (Word W)) {a : Nat}
    (ha : image.length ≤ a) : Memory.read (State.Of.boot image input).mem a = 0 := by
  have hread := Memory.read_ofImage image 0 a
  rwa [Nat.zero_add, List.getElem?_eq_none ha] at hread

/-- Settles O49: the launch leaves 0 beyond the image and the run keeps it where no step writes; a write keeps the 0
that the invariant gives beyond the extent. -/
theorem unwrittenWordsReadZeroAndWritesZeroExtend : Obligations.UnwrittenWordsReadZeroAndWritesZeroExtend := by
  refine ⟨fun image input s n a hlaunch hbeyond hunwritten => ?run, fun s a v hinv => ?write⟩
  case run =>
    obtain rfl := eq_boot_of_launchAt_eq_next hlaunch
    have hlen : (image.map (Word.ofInt (W := Config.W))).length ≤ a.val := by rwa [List.length_map]
    exact (runFor_read_of_not_writes hunwritten).trans (read_boot_of_length_le _ hlen)
  case write =>
    have hzero : ∀ b, s.extent ≤ b → wordAt s b = 0 := fun b hb => by
      rw [wordAt, hinv.memBelowExtent b hb]
      rfl
    exact ⟨State.Of.memRead_memWrite_self s a v,
      fun b hb hlt => wordAt_memWrite_beyond a v hzero hb (Nat.ne_of_lt hlt), fun b => wordAt_memWrite_ne s a v⟩

end Sys2Proof.Claims

/-! SUPPORT. The decoder in the claims' terms: decimal places, modes of digits and the opcode map (R82, R85, R90). -/

namespace Sys2Proof.Claims

theorem ModeOf.lt_ten {d : Nat} {m : Mode} (h : ModeOf d m) : d < 10 := by cases h <;> omega

/-- The decoder pairs a digit with the mode that it names (R85). -/
theorem ModeOf.modeOfDigit_eq {d : Nat} {m : Mode} (h : ModeOf d m) : modeOfDigit d = m := by
  cases h with
  | position | immediate | relative => rfl
  | unknown _ low high => exact modeOfDigit_digit (m := .unknown d) (by simp [Mode.wf, low, high])

/-- The opcode and mode digits of a number are read at their places, whatever stands above them (R82, R84). -/
theorem splitFields_compose_high {op d1 d2 d3 : Nat} (high : Nat) (h0 : op < 100) (h1 : d1 < 10) (h2 : d2 < 10)
    (h3 : d3 < 10) :
    splitFields (op + 100 * d1 + 1000 * d2 + 10000 * d3 + 100000 * high) =
      { opcode := op, mode1 := d1, mode2 := d2, mode3 := d3 } := by
  simp only [splitFields, digit, Fields.mk.injEq]
  omega

/-- On a word that is not negative the decoder is the opcode map on the word's fields (R82, R90). -/
theorem decode_of_toInt_eq_natCast {w : Word} {n : Nat} (h : w.toInt = n) :
    decode w = selectInstr (splitFields n) := by
  rw [decode_eq, decodeValue, h, if_neg (Int.natCast_nonneg n).not_gt, Int.toNat_natCast]

/-- The decoder's opcode map answers the instructions that the claims' opcode map selects, and no others (R90). -/
theorem selectInstr_eq_ok_iff_selects {f : Fields} {i : Instr} :
    selectInstr f = .ok i ↔
      Selects (modeOfDigit f.mode1) (modeOfDigit f.mode2) (modeOfDigit f.mode3) f.opcode i := by
  obtain ⟨op, d1, d2, d3⟩ := f
  constructor
  · intro h
    unfold selectInstr at h
    dsimp only at h ⊢
    split at h
    iterate 10
      obtain rfl := Except.ok.inj h
      constructor
    cases h
  · intro h
    cases h <;> rfl

/-- An opcode that selects nothing is refused, and recorded (R91). -/
theorem selectInstr_eq_error_of_not_selects {f : Fields}
    (h : ∀ i, ¬Selects (modeOfDigit f.mode1) (modeOfDigit f.mode2) (modeOfDigit f.mode3) f.opcode i) :
    selectInstr f = .error (.unknownOpcode f.opcode) := by
  cases hf : selectInstr f with
  | ok i => exact absurd (selectInstr_eq_ok_iff_selects.1 hf) (h i)
  | error e => rw [(selectInstr_eq_error hf).1]

/-- Settles O8: the word's fields are the given opcode and digits, and the decoder is the opcode map on them. -/
theorem decodeReadsTheDecimalFields : Obligations.DecodeReadsTheDecimalFields := by
  intro w op d1 d2 d3 high m1 m2 m3 hw hop h1 h2 h3
  have hdecode : decode w = selectInstr { opcode := op, mode1 := d1, mode2 := d2, mode3 := d3 } := by
    rw [← splitFields_compose_high high hop h1.lt_ten h2.lt_ten h3.lt_ten]
    exact decode_of_toInt_eq_natCast (by exact_mod_cast hw)
  obtain rfl := h1.modeOfDigit_eq
  obtain rfl := h2.modeOfDigit_eq
  obtain rfl := h3.modeOfDigit_eq
  rw [hdecode]
  exact ⟨fun _ => selectInstr_eq_ok_iff_selects, selectInstr_eq_error_of_not_selects (f := ⟨op, d1, d2, d3⟩)⟩

end Sys2Proof.Claims

/-! SUPPORT. Parameters in the claims' terms: the model resolves each one to the value, the address or the first fault
that the rules give (R113 to R119). -/

namespace Sys2Proof.Claims

open Sys2Proof.Machine

variable {s : State} {k : Nat} {m : Mode}

/-! ### Values and addresses -/

/-- A parameter whose address is in range is read from there (R113). -/
theorem raw_of_reach (hreach : s.pc.val + k ≤ Config.AMAX) :
    raw s k = .ok (Memory.read s.mem (s.pc.val + k)) := raw_eq_ok_iff_param.2 ⟨hreach, rfl⟩

/-- The address that a write target names is what the model resolves it to (R116). -/
theorem wr_eq_ok_of_targets {d : Addr} (h : Targets s k m d.val) : wr s k m = .ok d := by
  cases h with
  | position hreach haddr => exact paramAddr_eq_ok.2 ⟨_, raw_of_reach hreach, ea_position_eq_ok.2 haddr.symm⟩
  | relative hreach hin haddr =>
    exact paramAddr_eq_ok.2 ⟨_, raw_of_reach hreach, ea_relative_eq_ok.2 ⟨hin, haddr.symm⟩⟩

theorem wr_eq_ok_iff_targets {d : Addr} : wr s k m = .ok d ↔ Targets s k m d.val :=
  ⟨targets_of_wr_eq_ok, wr_eq_ok_of_targets⟩

/-- What a write target names is an address: a word of `Int_W` that is not negative (R5). -/
theorem Targets.lt {d : Nat} (h : Targets s k m d) : d < Config.AMAX + 1 := by
  have hd : InIntW (d : Int) := by
    cases h with
    | position _ haddr => exact haddr ▸ Word.inIntW _
    | relative _ hin haddr => exact haddr ▸ hin
  exact Nat.lt_succ_of_le (Int.ofNat_le.1 hd.2)

/-- But for Immediate, the operand is the word at the address that a write target of the same mode names (R115,
R117). -/
theorem readsAs_iff_targets (hm : m ≠ .immediate) {v : Int} :
    ReadsAs s k m v ↔ ∃ d, Targets s k m d ∧ v = wordAt s d := by
  constructor
  · intro h
    cases h with
    | immediate => exact absurd rfl hm
    | position hreach hnonneg hv => exact ⟨_, .position hreach (Int.toNat_of_nonneg hnonneg), hv⟩
    | relative hreach hin hnonneg hv => exact ⟨_, .relative hreach hin (Int.toNat_of_nonneg hnonneg), hv⟩
  · rintro ⟨d, h, rfl⟩
    cases h with
    | position hreach haddr =>
      exact .position hreach (haddr ▸ Int.natCast_nonneg d) (by rw [← haddr, Int.toNat_natCast])
    | relative hreach hin haddr =>
      exact .relative hreach hin (haddr ▸ Int.natCast_nonneg d) (by rw [← haddr, Int.toNat_natCast])

/-- The model reads an operand as the rules do (R115). -/
theorem rd_eq_ok_iff_readsAs {w : Word} : rd s k m = .ok w ↔ ReadsAs s k m w.toInt := by
  cases m with
  | unknown => exact ⟨nofun, nofun⟩
  | immediate =>
    exact raw_eq_ok_iff_param.trans
      ⟨fun ⟨hreach, hw⟩ => .immediate hreach hw, fun | .immediate hreach hw => ⟨hreach, hw⟩⟩
  | position | relative =>
    rw [readsAs_iff_targets (by decide)]
    exact readVia_eq_ok.trans
      ⟨fun ⟨a, ha, hw⟩ => ⟨a.val, targets_of_wr_eq_ok ha, congrArg BitVec.toInt hw⟩,
        fun ⟨d, hd, hw⟩ => ⟨⟨d, hd.lt⟩, wr_eq_ok_of_targets (d := ⟨d, hd.lt⟩) hd, BitVec.eq_of_toInt_eq hw⟩⟩

/-! ### Faults -/

/-- In Position mode the parameter's own address is checked, then the sign of the parameter (R113, R117). -/
theorem paramAddr_position_eq_error_iff {c : Cause} :
    paramAddr s k .position = .error c ↔ AddressFaults s k .position c := by
  rw [paramAddr_eq_error]
  constructor
  · rintro (hraw | ⟨w, hraw, hea⟩)
    · obtain ⟨hbeyond, rfl⟩ := raw_eq_error.1 hraw
      exact .positionBeyond hbeyond
    · obtain ⟨hreach, hw⟩ := raw_eq_ok_iff_param.1 hraw
      obtain ⟨hneg, rfl⟩ := ea_position_eq_error.1 hea
      exact .positionNegative hreach (hw ▸ hneg)
  · intro h
    cases h with
    | positionBeyond hbeyond => exact .inl (raw_eq_error.2 ⟨hbeyond, rfl⟩)
    | positionNegative hreach hneg => exact .inr ⟨_, raw_of_reach hreach, ea_position_eq_error.2 ⟨hneg, rfl⟩⟩

/-- In Relative mode the parameter's own address is checked, then the range of the sum, then its sign (R113, R117). -/
theorem paramAddr_relative_eq_error_iff {c : Cause} :
    paramAddr s k .relative = .error c ↔ AddressFaults s k .relative c := by
  rw [paramAddr_eq_error]
  constructor
  · rintro (hraw | ⟨w, hraw, hea⟩)
    · obtain ⟨hbeyond, rfl⟩ := raw_eq_error.1 hraw
      exact .relativeBeyond hbeyond
    · obtain ⟨hreach, hw⟩ := raw_eq_ok_iff_param.1 hraw
      rw [ea_relative_eq_error, hw] at hea
      rcases hea with ⟨hout, rfl⟩ | ⟨hin, hneg, rfl⟩
      · exact .sumOutside hreach hout
      · exact .relativeNegative hreach hin hneg
  · intro h
    cases h with
    | relativeBeyond hbeyond => exact .inl (raw_eq_error.2 ⟨hbeyond, rfl⟩)
    | sumOutside hreach hout =>
      exact .inr ⟨_, raw_of_reach hreach, ea_relative_eq_error.2 (.inl ⟨hout, rfl⟩)⟩
    | relativeNegative hreach hin hneg =>
      exact .inr ⟨_, raw_of_reach hreach, ea_relative_eq_error.2 (.inr ⟨hin, hneg, rfl⟩)⟩

/-- The model faults on a read parameter as the rules do (R114, R115, R119). -/
theorem rd_eq_error_iff_readFaults {c : Cause} : rd s k m = .error c ↔ ReadFaults s k m c := by
  cases m with
  | unknown d =>
    exact ⟨fun h => Except.error.inj h ▸ .unknownMode d, fun | .unknownMode _ => rfl⟩
  | immediate =>
    exact raw_eq_error.trans
      ⟨fun ⟨hbeyond, hc⟩ => hc ▸ .immediateBeyond hbeyond, fun | .immediateBeyond hbeyond => ⟨hbeyond, rfl⟩⟩
  | position =>
    exact (readVia_eq_error.trans paramAddr_position_eq_error_iff).trans ⟨.address, fun | .address h => h⟩
  | relative =>
    exact (readVia_eq_error.trans paramAddr_relative_eq_error_iff).trans ⟨.address, fun | .address h => h⟩

/-- The model faults on a write target as the rules do (R114, R116, R119). -/
theorem wr_eq_error_iff_targetFaults {c : Cause} : wr s k m = .error c ↔ TargetFaults s k m c := by
  cases m with
  | unknown d => exact ⟨fun h => Except.error.inj h ▸ .unknownMode d, fun | .unknownMode _ => rfl⟩
  | immediate => exact ⟨fun h => Except.error.inj h ▸ .immediate, fun | .immediate => rfl⟩
  | position => exact paramAddr_position_eq_error_iff.trans ⟨.address, fun | .address h => h⟩
  | relative => exact paramAddr_relative_eq_error_iff.trans ⟨.address, fun | .address h => h⟩

/-! ### The statements -/

/-- Settles O13: `rd` answers what the rules give, and as a function it always answers one of the two. -/
theorem readParameterResolvesAsStated : Obligations.ReadParameterResolvesAsStated := by
  intro s k m
  refine ⟨fun w => rd_eq_ok_iff_readsAs, fun c => rd_eq_error_iff_readFaults, ?total⟩
  case total =>
    cases h : rd s k m with
    | ok w => exact .inl ⟨w.toInt, rd_eq_ok_iff_readsAs.1 h⟩
    | error c => exact .inr ⟨c, rd_eq_error_iff_readFaults.1 h⟩

/-- Settles O14: `wr` answers what the rules give, and as a function it always answers one of the two. -/
theorem writeTargetResolvesAsStated : Obligations.WriteTargetResolvesAsStated := by
  intro s k m
  refine ⟨fun a => wr_eq_ok_iff_targets, fun c => wr_eq_error_iff_targetFaults, ?total⟩
  case total =>
    cases h : wr s k m with
    | ok a => exact .inl ⟨a.val, wr_eq_ok_iff_targets.1 h⟩
    | error c => exact .inr ⟨c, wr_eq_error_iff_targetFaults.1 h⟩

/-- Settles O15: an Immediate read is the raw word, which is fetched from the same address in both states. -/
theorem immediateReadIsModeIndependent : Obligations.ImmediateReadIsModeIndependent := by
  intro s s' k hreach hpc hmem
  have hread : rd s k .immediate = .ok (s.memRead ⟨s.pc.val + k, hreach⟩) := raw_of_reach (Nat.le_of_lt_succ hreach)
  refine ⟨hread, ?same⟩
  case same =>
    have hreach' : s'.pc.val + k ≤ Config.AMAX := hpc ▸ Nat.le_of_lt_succ hreach
    calc rd s' k .immediate
      _ = .ok (Memory.read s'.mem (s'.pc.val + k)) := raw_of_reach hreach'
      _ = .ok (s.memRead ⟨s.pc.val + k, hreach⟩) := by rw [hpc, hmem, State.Of.memRead]
      _ = rd s k .immediate := hread.symm

end Sys2Proof.Claims

/-! SUPPORT. The step in the claims' terms: when there is one (R123), what a faulting one changes (R120), and where a
completed one leaves `pc` (R121). -/

namespace Sys2Proof.Claims

open Sys2Proof.Machine

variable {s t : State} {i : Instr}

/-! ### The branches of the step -/

theorem step_of_halted (h : s.status = .halted) : step s = .fault .haltedTakesNoStep := by
  simp only [step, stepWith, h]

theorem step_of_faulted (h : s.status = .faulted) : step s = .fault .faultedTakesNoStep := by
  simp only [step, stepWith, h]

/-- The step runs the instruction that the word at `pc` decodes to (R110, R112). -/
theorem step_of_runs (h : Runs s i) : step s = exec i s := by
  obtain ⟨hrun, hi⟩ := h
  rw [decode_eq] at hi
  simp only [step, stepWith, fetch, hrun, hi]

/-- The step takes the fault of a word that is no instruction (R110, R181). -/
theorem step_of_decode_eq_error {op : Int} (hrun : s.status = .running)
    (h : decode (s.memRead s.pc) = .error (.unknownOpcode op)) :
    step s = .next (faultedWith s (.unknownOpcode op s.pc)) := by
  rw [decode_eq] at h
  simp only [step, stepWith, fetch, hrun, h]
  rfl

/-! ### Progress -/

theorem exists_commit_eq_next (s : State) (r : Except Cause State) : ∃ t, commit s r = .next t := by
  cases r with
  | ok t => exact ⟨t, commit_ok s t⟩
  | error c => exact ⟨s.raise c, commit_error s c⟩

/-- Every instruction answers a next state: its faults are next states as well (R188). -/
theorem exists_exec_eq_next (i : Instr) (s : State) : ∃ t, exec i s = .next t := by
  cases i with
  | add | mul | lt | eq | inp | out | jt | jf | arb => exact exists_commit_eq_next s _
  | halt => exact ⟨s.halt, rfl⟩

/-- A running core takes its step (R110). -/
theorem exists_step_eq_next (hrun : s.status = .running) : ∃ t, step s = .next t := by
  cases hd : decode (s.memRead s.pc) with
  | ok i =>
    rw [step_of_runs ⟨hrun, hd⟩]
    exact exists_exec_eq_next i s
  | error e => exact ⟨_, step_of_decode_eq_error hrun hd⟩

/-- Settles O29: a running core has a next state, and the other two answer the model's `fault`. -/
theorem exactlyTheRunningStatesStep : Obligations.ExactlyTheRunningStatesStep := by
  intro s
  refine ⟨⟨exists_step_eq_next, fun ⟨t, ht⟩ => (step_cases ht).1⟩, fun r hr => ?refused⟩
  case refused =>
    cases hs : s.status with
    | running =>
      obtain ⟨t, ht⟩ := exists_step_eq_next hs
      cases hr.symm.trans ht
    | halted => cases hr.symm.trans (step_of_halted hs)
    | faulted => cases hr.symm.trans (step_of_faulted hs)

/-! ### Faults -/

/-- An instruction whose state is faulted has taken a fault in the state before it: whatever it completes with keeps
the status or halts (R119, R120). -/
theorem exec_eq_raise_of_faulted (hrun : s.status = .running) (h : exec i s = .next t) (hf : t.status = .faulted) :
    ∃ c, t = s.raise c := by
  have hkept : s.status ≠ .faulted := by rw [hrun]; decide
  rcases exec_cases h with hraise | ⟨-, rfl⟩ | ⟨n, rfl | ⟨_, rfl⟩ | ⟨_, rfl⟩ | ⟨_, _, rfl⟩ | ⟨_, _, -, rfl⟩⟩
  · exact hraise
  · cases hf
  all_goals exact absurd hf hkept

/-- Settles O30: the step is an instruction that took a fault, or the fault of a word that is no instruction. -/
theorem faultsArePrecise : Obligations.FaultsArePrecise := by
  intro s t h hf
  obtain ⟨hrun, ⟨i, -, hexec⟩ | ⟨op, -, rfl⟩⟩ := step_cases h
  · exact ⟨hrun, exec_eq_raise_of_faulted hrun hexec hf⟩
  · exact ⟨hrun, _, rfl⟩

/-! ### The program counter -/

theorem wordIsTrue_eq_true {w : Word} : wordIsTrue w = true ↔ w.toInt ≠ 0 := decide_eq_true_iff

theorem wordIsTrue_eq_false {w : Word} : wordIsTrue w = false ↔ w.toInt = 0 :=
  decide_eq_false_iff_not.trans not_not

/-- A completed instruction that is neither a jump nor HALT advances `pc` by its length (R121). -/
theorem exec_pc_of_not_jump (h : exec i s = .next t) (hok : t.status ≠ .faulted) (hjump : ¬IsJump i)
    (hhalt : i ≠ .halt) : t.pc.val = s.pc.val + i.length := by
  cases i with
  | add | mul | lt | eq =>
    rcases aluInstr_cases h with ⟨_, rfl⟩ | ⟨_, _, _, _, n, -, -, -, -, hn, rfl⟩
    · exact absurd rfl hok
    · exact chkPc_eq_ok.1 hn
  | inp =>
    rcases execIn_cases h with ⟨_, rfl⟩ | ⟨_, _, n, -, -, hn, rfl⟩
    · exact absurd rfl hok
    · exact chkPc_eq_ok.1 hn
  | out =>
    rcases execOut_cases h with ⟨_, rfl⟩ | ⟨_, n, -, hn, rfl⟩
    · exact absurd rfl hok
    · exact chkPc_eq_ok.1 hn
  | arb =>
    rcases execArb_cases h with ⟨_, rfl⟩ | ⟨_, _, n, -, -, hn, rfl⟩
    · exact absurd rfl hok
    · exact chkPc_eq_ok.1 hn
  | jt ma mb => exact absurd (.jt ma mb) hjump
  | jf ma mb => exact absurd (.jf ma mb) hjump
  | halt => exact absurd rfl hhalt

/-- A completed JT loads its second operand when its first is not 0, and else adds 3 (R121, R155). -/
theorem exec_jt_pc {ma mb : Mode} (h : exec (.jt ma mb) s = .next t) (hok : t.status ≠ .faulted) :
    ∃ a b, ReadsAs s 1 ma a ∧ ReadsAs s 2 mb b ∧
      (a ≠ 0 ∧ (t.pc.val : Int) = b ∨ a = 0 ∧ t.pc.val = s.pc.val + 3) := by
  rcases execJt_cases h with ⟨_, rfl⟩ | ⟨a, b, n, ha, hb, rfl, hpc⟩
  · exact absurd rfl hok
  · exact ⟨a.toInt, b.toInt, rd_eq_ok_iff_readsAs.1 ha, rd_eq_ok_iff_readsAs.1 hb,
      hpc.imp (.imp wordIsTrue_eq_true.1 Eq.symm) (.imp_left wordIsTrue_eq_false.1)⟩

/-- A completed JF loads its second operand when its first is 0, and else adds 3 (R121, R156). -/
theorem exec_jf_pc {ma mb : Mode} (h : exec (.jf ma mb) s = .next t) (hok : t.status ≠ .faulted) :
    ∃ a b, ReadsAs s 1 ma a ∧ ReadsAs s 2 mb b ∧
      (a = 0 ∧ (t.pc.val : Int) = b ∨ a ≠ 0 ∧ t.pc.val = s.pc.val + 3) := by
  rcases execJf_cases h with ⟨_, rfl⟩ | ⟨a, b, n, ha, hb, rfl, hpc⟩
  · exact absurd rfl hok
  · exact ⟨a.toInt, b.toInt, rd_eq_ok_iff_readsAs.1 ha, rd_eq_ok_iff_readsAs.1 hb,
      hpc.imp (.imp wordIsTrue_eq_false.1 Eq.symm) (.imp_left wordIsTrue_eq_true.1)⟩

/-- Settles O33: the step is the instruction's own, and each kind of instruction has its rule for `pc`. -/
theorem pcAdvancesByTheLengthOrJumps : Obligations.PcAdvancesByTheLengthOrJumps := by
  intro s t i hruns hstep hok
  have hexec : exec i s = .next t := (step_of_runs hruns).symm.trans hstep
  refine ⟨exec_pc_of_not_jump hexec hok, ?halt, ?jt, ?jf⟩
  case halt =>
    rintro rfl
    obtain rfl : s.halt = t := Host.Outcome.next.inj hexec
    rfl
  case jt =>
    rintro ma mb rfl
    exact exec_jt_pc hexec hok
  case jf =>
    rintro ma mb rfl
    exact exec_jf_pc hexec hok

end Sys2Proof.Claims

/-! SUPPORT. The arithmetic/logic unit in the claims' terms: the canonical words, the resolved parameters and the four
instructions of the ALU family as one shape with the ALU's operation as its argument (R130 to R135). -/

namespace Sys2Proof.Claims

open Sys2Proof.Machine

/-! ### Canonical words -/

/-- A well-formed mode is the one that its digit names (R85). -/
theorem modeOf_digit {m : Mode} (h : m.wf = true) : ModeOf m.digit m := by
  cases m with
  | position => exact .position
  | immediate => exact .immediate
  | relative => exact .relative
  | unknown d =>
    obtain ⟨low, high⟩ : 3 ≤ d ∧ d ≤ 9 := of_decide_eq_true h
    exact .unknown d low high

theorem Selects.opcode_lt {m1 m2 m3 : Mode} {op : Nat} {i : Instr} (h : Selects m1 m2 m3 op i) : op < 100 := by
  cases h <;> decide

/-- The canonical word of an opcode and three well-formed modes decodes to the instruction that they select (R82, R95).
An instruction with fewer parameters has Position in the places of the missing ones, whose digit is 0. -/
theorem decode_canonicalWord {m1 m2 m3 : Mode} {op : Nat} {i : Instr} (hi : Selects m1 m2 m3 op i)
    (h1 : m1.wf = true) (h2 : m2.wf = true) (h3 : m3.wf = true) :
    decode (Word.ofInt (canonicalWord op m1.digit m2.digit m3.digit)) = .ok i := by
  have hop := hi.opcode_lt
  have hd1 := Mode.digit_lt h1
  have hd2 := Mode.digit_lt h2
  have hd3 := Mode.digit_lt h3
  have hin : InIntW (canonicalWord op m1.digit m2.digit m3.digit) := by
    simp only [inIntW_iff, canonicalWord, Config.W]
    omega
  have hvalue : (Word.ofInt (canonicalWord op m1.digit m2.digit m3.digit) : Word).toInt =
      op + 100 * m1.digit + 1000 * m2.digit + 10000 * m3.digit + 100000 * (0 : Nat) := by
    rw [toInt_ofInt hin, canonicalWord]
    omega
  obtain ⟨hselects, -⟩ := decodeReadsTheDecimalFields _ op m1.digit m2.digit m3.digit 0 m1 m2 m3 hvalue hop
    (modeOf_digit h1) (modeOf_digit h2) (modeOf_digit h3)
  exact (hselects i).2 hi

/-! ### The shared shape -/

section

variable {s : State} {ma mb md : Mode} {a b : Int} {d : Nat} {op : AluOp}

/-- What a read parameter reads as is the value of a word, which the model resolves it to (R115). -/
theorem ReadsAs.exists_rd {k : Nat} {m : Mode} {v : Int} (h : ReadsAs s k m v) :
    ∃ w : Word, rd s k m = .ok w ∧ w.toInt = v := by
  obtain ⟨w, rfl⟩ : ∃ w : Word, w.toInt = v := by
    cases h with
    | position _ _ hv | immediate _ hv | relative _ _ _ hv => exact ⟨_, hv.symm⟩
  exact ⟨w, rd_eq_ok_iff_readsAs.2 h, rfl⟩

/-- The address that a write target names is the one that the model resolves it to (R116). -/
theorem Targets.exists_wr {k : Nat} {m : Mode} {d : Nat} (h : Targets s k m d) :
    ∃ a : Addr, wr s k m = .ok a ∧ a.val = d :=
  ⟨⟨d, h.lt⟩, wr_eq_ok_of_targets (d := ⟨d, h.lt⟩) h, rfl⟩

/-- The fault that an instruction ends with is taken, and changes nothing else (R120, R188). -/
theorem commit_error_eq_faultedWith (s : State) (c : Cause) : commit s (.error c) = .next (faultedWith s c) := rfl

/-- Once the parameters are resolved, what remains is the checked result, the checked advance and the write (R130). -/
theorem aluInstr_of_threeParams (op : AluOp) (h : ThreeParams s ma mb md a b d) :
    ∃ target : Addr, target.val = d ∧ aluInstr op ma mb md s = commit s (do
      let r ← chk (alu op a b)
      let n ← chkPc s 4
      .ok ((s.memWrite target r).setPc n)) := by
  obtain ⟨ha, hb, hd⟩ := h
  obtain ⟨wa, hwa, rfl⟩ := ha.exists_rd
  obtain ⟨wb, hwb, rfl⟩ := hb.exists_rd
  obtain ⟨target, htarget, rfl⟩ := hd.exists_wr
  refine ⟨target, rfl, ?_⟩
  simp only [aluInstr, hwa, hwb, htarget, ok_bind]

/-- Completion: the result is stored at the target and `pc` advances by 4 (R130). -/
theorem aluInstr_completes (h : ThreeParams s ma mb md a b d) (hin : InIntW (alu op a b))
    (hpc : s.pc.val + 4 ≤ Config.AMAX) :
    ∃ (target : Addr) (r : Word) (n : Addr), target.val = d ∧ r.toInt = alu op a b ∧ n.val = s.pc.val + 4 ∧
      aluInstr op ma mb md s = .next ((s.memWrite target r).setPc n) := by
  obtain ⟨target, htarget, hexec⟩ := aluInstr_of_threeParams op h
  obtain ⟨n, hn⟩ : ∃ n : Addr, n.val = s.pc.val + 4 := ⟨⟨_, Nat.lt_succ_of_le hpc⟩, rfl⟩
  have hr := toInt_ofInt hin
  refine ⟨target, Word.ofInt (alu op a b), n, htarget, hr, hn, ?_⟩
  rw [hexec, chk_eq_ok.2 ⟨hin, hr⟩, ok_bind, chkPc_eq_ok.2 hn, ok_bind, commit_ok]

/-- A result outside `Int_W` faults (R132, R133). -/
theorem aluInstr_result_overflows (h : ThreeParams s ma mb md a b d) (hout : ¬InIntW (alu op a b)) :
    aluInstr op ma mb md s = .next (faultedWith s .overflow) := by
  obtain ⟨_, -, hexec⟩ := aluInstr_of_threeParams op h
  rw [hexec, chk_eq_error.2 ⟨hout, rfl⟩, error_bind, commit_error_eq_faultedWith]

/-- An advance beyond the address space faults, whether or not the result is in range (R121). -/
theorem aluInstr_advance_overflows (h : ThreeParams s ma mb md a b d) (hpc : Config.AMAX < s.pc.val + 4) :
    aluInstr op ma mb md s = .next (faultedWith s .overflow) := by
  by_cases hin : InIntW (alu op a b)
  · obtain ⟨_, -, hexec⟩ := aluInstr_of_threeParams op h
    rw [hexec, chk_eq_ok.2 ⟨hin, toInt_ofInt hin⟩, ok_bind, chkPc_eq_error.2 ⟨hpc, rfl⟩, error_bind,
      commit_error_eq_faultedWith]
  · exact aluInstr_result_overflows h hin

/-- The first fault among the parameters is the one taken (R119). -/
theorem aluInstr_of_threeParamsFault {c : Cause} (h : ThreeParamsFault s ma mb md c) :
    aluInstr op ma mb md s = .next (faultedWith s c) := by
  rcases h with h1 | ⟨a, ha, h2⟩ | ⟨a, b, ha, hb, h3⟩
  · rw [aluInstr, rd_eq_error_iff_readFaults.2 h1, error_bind, commit_error_eq_faultedWith]
  · obtain ⟨wa, hwa, -⟩ := ha.exists_rd
    rw [aluInstr, hwa, ok_bind, rd_eq_error_iff_readFaults.2 h2, error_bind, commit_error_eq_faultedWith]
  · obtain ⟨wa, hwa, -⟩ := ha.exists_rd
    obtain ⟨wb, hwb, -⟩ := hb.exists_rd
    rw [aluInstr, hwa, ok_bind, hwb, ok_bind, wr_eq_error_iff_targetFaults.2 h3, error_bind,
      commit_error_eq_faultedWith]

end

/-! ### The four instructions -/

/-- The ALU family: an instruction, its opcode, and the ALU operation that it presents (R131). -/
inductive AluFamily : (Mode → Mode → Mode → Instr) → Nat → AluOp → Prop
  | add : AluFamily .add 1 .add
  | mul : AluFamily .mul 2 .mul
  | lt : AluFamily .lt 7 .lessThan
  | eq : AluFamily .eq 8 .equals

namespace AluFamily

variable {mk : Mode → Mode → Mode → Instr} {op : Nat} {aop : AluOp}

theorem selects (h : AluFamily mk op aop) (ma mb md : Mode) : Selects ma mb md op (mk ma mb md) := by
  cases h <;> constructor

theorem length_eq (h : AluFamily mk op aop) (ma mb md : Mode) : (mk ma mb md).length = 4 := by cases h <;> rfl

theorem exec_eq (h : AluFamily mk op aop) (ma mb md : Mode) (s : State) :
    exec (mk ma mb md) s = aluInstr aop ma mb md s := by cases h <;> rfl

/-- Every member of the family obeys the rule with the ALU's result. -/
theorem aluRule (h : AluFamily mk op aop) : AluRule mk op (alu aop) := by
  intro ma mb md s
  rw [h.exec_eq]
  refine ⟨fun ha hb hd => ⟨decode_canonicalWord (h.selects ma mb md) ha hb hd, h.length_eq ma mb md⟩,
    fun a b d hparams hin hpc => ?completes, fun c => aluInstr_of_threeParamsFault,
    fun a b d => aluInstr_advance_overflows⟩
  case completes =>
    obtain ⟨target, r, n, rfl, hr, hn, hnext⟩ := aluInstr_completes hparams hin hpc
    have hstored : StoredAt s ((s.memWrite target r).setPc n) target.val (alu aop a b) :=
      hr ▸ storedAt_memWrite s target r
    exact ⟨_, hnext, hstored, hn, rfl, ⟨rfl, rfl, rfl⟩, ⟨rfl, rfl⟩, rfl⟩

/-- Every member of the family faults on a result outside `Int_W`. -/
theorem aluOverflowRule (h : AluFamily mk op aop) : AluOverflowRule mk (alu aop) := by
  intro ma mb md s a b d hparams hout
  rw [h.exec_eq]
  exact aluInstr_result_overflows hparams hout

end AluFamily

/-! ### The ALU's results -/

theorem alu_add : alu .add = fun a b => a + b := rfl

theorem alu_mul : alu .mul = fun a b => a * b := rfl

theorem alu_lessThan : alu .lessThan = fun a b => if a < b then 1 else 0 := by
  funext a b
  simp only [alu, truthValue, decide_eq_true_eq]

theorem alu_equals : alu .equals = fun a b => if a = b then 1 else 0 := by
  funext a b
  simp only [alu, truthValue, decide_eq_true_eq]

/-- A truth value is in `Int_W`, so a comparison cannot overflow (R134, R135, R137). -/
theorem inIntW_ite (p : Prop) [Decidable p] : InIntW (if p then 1 else 0) := by
  split <;> decide

/-! ### The statements -/

/-- Settles O16: ADD is the member of the family whose result is the sum. -/
theorem addStoresTheSum : Obligations.AddStoresTheSum := by
  rw [Obligations.AddStoresTheSum, ← alu_add]
  exact ⟨AluFamily.add.aluRule, AluFamily.add.aluOverflowRule⟩

/-- Settles O17: MUL is the member of the family whose result is the product. -/
theorem mulStoresTheProduct : Obligations.MulStoresTheProduct := by
  rw [Obligations.MulStoresTheProduct, ← alu_mul]
  exact ⟨AluFamily.mul.aluRule, AluFamily.mul.aluOverflowRule⟩

/-- Settles O18: LT is the member of the family whose result is the signed order, a truth value. -/
theorem ltStoresTheSignedOrder : Obligations.LtStoresTheSignedOrder := by
  rw [Obligations.LtStoresTheSignedOrder, ← alu_lessThan]
  exact ⟨AluFamily.lt.aluRule, fun a b => inIntW_ite (a < b)⟩

/-- Settles O19: EQ is the member of the family whose result is the equality, a truth value. -/
theorem eqStoresTheEquality : Obligations.EqStoresTheEquality := by
  rw [Obligations.EqStoresTheEquality, ← alu_equals]
  exact ⟨AluFamily.eq.aluRule, fun a b => inIntW_ite (a = b)⟩

end Sys2Proof.Claims

/-! SUPPORT. Input and output in the claims' terms: what IN and OUT complete with once their parameter is resolved,
and the order in which they fault (R145, R146). -/

namespace Sys2Proof.Claims

open Sys2Proof.Machine

variable {s : State} {m : Mode} {c : Cause} {d : Nat} {a : Int}

theorem exec_inp_eq_execIn (m : Mode) (s : State) : exec (.inp m) s = execIn m s := rfl

theorem exec_out_eq_execOut (m : Mode) (s : State) : exec (.out m) s = execOut m s := rfl

/-- An address that is in range is what the checked advance answers (R121). -/
theorem exists_chkPc_eq_ok {n : Nat} (h : s.pc.val + n ≤ Config.AMAX) :
    ∃ p : Addr, chkPc s n = .ok p ∧ p.val = s.pc.val + n :=
  ⟨⟨_, Nat.lt_succ_of_le h⟩, chkPc_eq_ok.2 rfl, rfl⟩

/-! ### IN -/

/-- The value at the cursor is the next input (R145). -/
theorem nextInput_of_lt (h : s.inCursor < s.input.length) : nextInput s = .ok s.input[s.inCursor] :=
  nextInput_eq_ok.2 (List.getElem?_eq_getElem h)

/-- Once the target is resolved, what remains is the input, the checked advance and the write (R145). -/
theorem execIn_of_targets (h : Targets s 1 m d) :
    ∃ target : Addr, target.val = d ∧ execIn m s = commit s (do
      let v ← nextInput s
      let n ← chkPc s 2
      .ok (((s.memWrite target v).consumeInput).setPc n)) := by
  obtain ⟨target, htarget, hd⟩ := h.exists_wr
  exact ⟨target, hd, by rw [execIn, htarget, ok_bind]⟩

/-- Completion: the value at the cursor is stored at the target and consumed, and `pc` advances by 2 (R145). -/
theorem execIn_completes (h : Targets s 1 m d) (hinput : s.inCursor < s.input.length)
    (hpc : s.pc.val + 2 ≤ Config.AMAX) :
    ∃ target n : Addr, target.val = d ∧ n.val = s.pc.val + 2 ∧
      execIn m s = .next (((s.memWrite target s.input[s.inCursor]).consumeInput).setPc n) := by
  obtain ⟨target, htarget, hexec⟩ := execIn_of_targets h
  obtain ⟨n, hchk, hn⟩ := exists_chkPc_eq_ok hpc
  refine ⟨target, n, htarget, hn, ?_⟩
  rw [hexec, nextInput_of_lt hinput, ok_bind, hchk, ok_bind, commit_ok]

/-- The target's first fault is taken whatever the input holds (R145). -/
theorem execIn_of_targetFaults (h : TargetFaults s 1 m c) : execIn m s = .next (faultedWith s c) := by
  rw [execIn, wr_eq_error_iff_targetFaults.2 h, error_bind, commit_error_eq_faultedWith]

/-- No remaining input faults once the target is resolved, whether or not the advance is in range (R145, R184). -/
theorem execIn_input_exhausted (h : Targets s 1 m d) (hinput : s.input.length ≤ s.inCursor) :
    execIn m s = .next (faultedWith s .inputExhausted) := by
  obtain ⟨_, -, hexec⟩ := execIn_of_targets h
  rw [hexec, nextInput_eq_error.2 ⟨hinput, rfl⟩, error_bind, commit_error_eq_faultedWith]

/-- An advance beyond the address space faults when an input value remains (R121). -/
theorem execIn_advance_overflows (h : Targets s 1 m d) (hinput : s.inCursor < s.input.length)
    (hpc : Config.AMAX < s.pc.val + 2) : execIn m s = .next (faultedWith s .overflow) := by
  obtain ⟨_, -, hexec⟩ := execIn_of_targets h
  rw [hexec, nextInput_of_lt hinput, ok_bind, chkPc_eq_error.2 ⟨hpc, rfl⟩, error_bind, commit_error_eq_faultedWith]

/-- Settles O20: the target, the input and the advance are examined in this order, and only when none of them faults
is the value stored and consumed. -/
theorem inStoresTheNextInput : Obligations.InStoresTheNextInput := by
  intro md s
  rw [exec_inp_eq_execIn]
  refine ⟨fun hmd => ⟨decode_canonicalWord (m2 := .position) (m3 := .position) .inp hmd rfl rfl, rfl⟩,
    fun d hinput hd hpc => ?completes, fun c => execIn_of_targetFaults, fun d => execIn_input_exhausted,
    fun d => execIn_advance_overflows⟩
  case completes =>
    obtain ⟨target, n, rfl, hn, hnext⟩ := execIn_completes hd hinput hpc
    have hstored : StoredAt s (((s.memWrite target s.input[s.inCursor]).consumeInput).setPc n) target.val
        s.input[s.inCursor].toInt := storedAt_memWrite s target _
    exact ⟨_, hnext, hstored, rfl, hn, rfl, rfl, ⟨rfl, rfl, rfl⟩, rfl⟩

/-! ### OUT -/

/-- Completion: a word of the operand's value is appended to the output, and `pc` advances by 2 (R146). -/
theorem execOut_completes (h : ReadsAs s 1 m a) (hpc : s.pc.val + 2 ≤ Config.AMAX) :
    ∃ (v : Word) (n : Addr), v.toInt = a ∧ n.val = s.pc.val + 2 ∧ execOut m s = .next ((s.pushOut v).setPc n) := by
  obtain ⟨v, hread, hv⟩ := h.exists_rd
  obtain ⟨n, hchk, hn⟩ := exists_chkPc_eq_ok hpc
  refine ⟨v, n, hv, hn, ?_⟩
  rw [execOut, hread, ok_bind, hchk, ok_bind, commit_ok]

/-- The operand's first fault is taken first (R119). -/
theorem execOut_of_readFaults (h : ReadFaults s 1 m c) : execOut m s = .next (faultedWith s c) := by
  rw [execOut, rd_eq_error_iff_readFaults.2 h, error_bind, commit_error_eq_faultedWith]

/-- An advance beyond the address space faults once the operand is read (R121). -/
theorem execOut_advance_overflows (h : ReadsAs s 1 m a) (hpc : Config.AMAX < s.pc.val + 2) :
    execOut m s = .next (faultedWith s .overflow) := by
  obtain ⟨_, hread, -⟩ := h.exists_rd
  rw [execOut, hread, ok_bind, chkPc_eq_error.2 ⟨hpc, rfl⟩, error_bind, commit_error_eq_faultedWith]

/-- Settles O21: the operand and the advance are examined in this order, and the completed state differs from the old
one in `out` and `pc` alone. -/
theorem outAppendsTheOperand : Obligations.OutAppendsTheOperand := by
  intro ma s
  rw [exec_out_eq_execOut]
  refine ⟨fun hma => ⟨decode_canonicalWord (m2 := .position) (m3 := .position) .out hma rfl rfl, rfl⟩,
    fun a ha hpc => ?completes, fun c => execOut_of_readFaults, fun a => execOut_advance_overflows⟩
  case completes =>
    obtain ⟨v, n, hv, hn, hnext⟩ := execOut_completes ha hpc
    exact ⟨_, v, hnext, rfl, hv, hn, ⟨fun _ => rfl, rfl⟩, rfl, ⟨rfl, rfl, rfl⟩, ⟨rfl, rfl⟩⟩

end Sys2Proof.Claims

/-! SUPPORT. Control transfer in the claims' terms: JT and JF as one conditional jump with the condition as its
argument, and HALT (R155 to R157). -/

namespace Sys2Proof.Claims

open Sys2Proof.Machine

/-- What a completed jump keeps, since its whole effect is the update of `pc` (R155, R156). -/
theorem setPc_keeps_all_but_pc (s : State) (n : Addr) :
    MemoryKept s (s.setPc n) ∧ (s.setPc n).rb = s.rb ∧ StatusKept s (s.setPc n) ∧ InputKept s (s.setPc n) ∧
      (s.setPc n).out = s.out :=
  ⟨⟨fun _ => rfl, rfl⟩, rfl, ⟨rfl, rfl, rfl⟩, ⟨rfl, rfl⟩, rfl⟩

/-! ### The shared shape of the jumps -/

/-- The shape that JT and JF share: both parameters are resolved, then the jump to the second one is taken when the
first one satisfies the condition (R155, R156; R119). -/
def jumpInstr (taken : Int → Prop) [DecidablePred taken] (ma mb : Mode) (s : State) :
    Host.Outcome State Fault Refusal :=
  commit s do
    let a ← rd s 1 ma
    let b ← rd s 2 mb
    if taken a.toInt then jumpTo s b else fallThrough s 3

theorem exec_jt_eq_jumpInstr (ma mb : Mode) (s : State) :
    exec (.jt ma mb) s = jumpInstr (fun a => a ≠ 0) ma mb s := by
  simp only [exec, execJt, jumpInstr, wordIsTrue_eq_true]

/-- JF is written with its branches the other way round (R156). -/
theorem exec_jf_eq_jumpInstr (ma mb : Mode) (s : State) :
    exec (.jf ma mb) s = jumpInstr (fun a => a = 0) ma mb s := by
  simp only [exec, execJf, jumpInstr, wordIsTrue_eq_true, ite_not]

section

variable {taken : Int → Prop} [DecidablePred taken] {s : State} {ma mb : Mode} {a b : Int}

/-- Once both parameters are resolved, what remains is the taken jump or the advance by 3. -/
theorem jumpInstr_of_readsAs (ha : ReadsAs s 1 ma a) (hb : ReadsAs s 2 mb b) :
    ∃ target : Word, target.toInt = b ∧
      jumpInstr taken ma mb s = commit s (if taken a then jumpTo s target else fallThrough s 3) := by
  obtain ⟨wa, hwa, rfl⟩ := ha.exists_rd
  obtain ⟨wb, hwb, rfl⟩ := hb.exists_rd
  exact ⟨wb, rfl, by rw [jumpInstr, hwa, ok_bind, hwb, ok_bind]⟩

/-- A target that is not negative is an address, and a taken jump loads it into `pc` (R155, R158). -/
theorem jumpInstr_jumps (ha : ReadsAs s 1 ma a) (hb : ReadsAs s 2 mb b) (htaken : taken a) (hnonneg : 0 ≤ b) :
    ∃ n : Addr, (n.val : Int) = b ∧ jumpInstr taken ma mb s = .next (s.setPc n) := by
  obtain ⟨target, rfl, hexec⟩ := jumpInstr_of_readsAs (taken := taken) ha hb
  obtain ⟨n, hn⟩ : ∃ n : Addr, (n.val : Int) = target.toInt :=
    ⟨⟨_, Word.toNat_lt target⟩, Int.toNat_of_nonneg hnonneg⟩
  refine ⟨n, hn, ?_⟩
  rw [hexec, if_pos htaken, jumpTo_eq_ok.2 ⟨n, hn.symm, rfl⟩, commit_ok]

/-- A jump that is not taken advances `pc` by 3, whatever its target (R155). -/
theorem jumpInstr_falls_through (ha : ReadsAs s 1 ma a) (hb : ReadsAs s 2 mb b) (huntaken : ¬taken a)
    (hpc : s.pc.val + 3 ≤ Config.AMAX) :
    ∃ n : Addr, n.val = s.pc.val + 3 ∧ jumpInstr taken ma mb s = .next (s.setPc n) := by
  obtain ⟨_, -, hexec⟩ := jumpInstr_of_readsAs (taken := taken) ha hb
  obtain ⟨n, -, hn⟩ := exists_chkPc_eq_ok hpc
  refine ⟨n, hn, ?_⟩
  rw [hexec, if_neg huntaken, fallThrough_eq_ok.2 ⟨n, hn, rfl⟩, commit_ok]

/-- The first fault among the two parameters is taken whatever the condition says (R119). -/
theorem jumpInstr_of_twoParamsFault {c : Cause} (h : TwoParamsFault s ma mb c) :
    jumpInstr taken ma mb s = .next (faultedWith s c) := by
  rcases h with h1 | ⟨a, ha, h2⟩
  · rw [jumpInstr, rd_eq_error_iff_readFaults.2 h1, error_bind, commit_error_eq_faultedWith]
  · obtain ⟨wa, hwa, -⟩ := ha.exists_rd
    rw [jumpInstr, hwa, ok_bind, rd_eq_error_iff_readFaults.2 h2, error_bind, commit_error_eq_faultedWith]

/-- A taken jump to a negative target faults (R158, R185). -/
theorem jumpInstr_target_negative (ha : ReadsAs s 1 ma a) (hb : ReadsAs s 2 mb b) (htaken : taken a)
    (hneg : b < 0) : jumpInstr taken ma mb s = .next (faultedWith s .negativeAddress) := by
  obtain ⟨target, rfl, hexec⟩ := jumpInstr_of_readsAs (taken := taken) ha hb
  rw [hexec, if_pos htaken, jumpTo_eq_error.2 ⟨hneg, rfl⟩, commit_error_eq_faultedWith]

/-- An advance beyond the address space faults when the jump is not taken (R121). -/
theorem jumpInstr_advance_overflows (ha : ReadsAs s 1 ma a) (hb : ReadsAs s 2 mb b) (huntaken : ¬taken a)
    (hpc : Config.AMAX < s.pc.val + 3) : jumpInstr taken ma mb s = .next (faultedWith s .overflow) := by
  obtain ⟨_, -, hexec⟩ := jumpInstr_of_readsAs (taken := taken) ha hb
  rw [hexec, if_neg huntaken, fallThrough_eq_error.2 ⟨hpc, rfl⟩, commit_error_eq_faultedWith]

/-- An instruction of the opcode map whose meaning has the shared shape obeys the rule of a conditional jump. -/
theorem jumpRule_of_exec_eq_jumpInstr {mk : Mode → Mode → Instr} {op : Nat}
    (hselects : ∀ ma mb, Selects ma mb .position op (mk ma mb)) (hlength : ∀ ma mb, (mk ma mb).length = 3)
    (hexec : ∀ ma mb s, exec (mk ma mb) s = jumpInstr taken ma mb s) : JumpRule mk op taken := by
  intro ma mb s
  rw [hexec]
  refine ⟨fun hma hmb => ⟨decode_canonicalWord (m3 := .position) (hselects ma mb) hma hmb rfl, hlength ma mb⟩,
    fun a b ha hb htaken hnonneg => ?jumps, fun a b ha hb huntaken hpc => ?fallsThrough,
    fun c => jumpInstr_of_twoParamsFault, fun a b => jumpInstr_target_negative,
    fun a b => jumpInstr_advance_overflows⟩
  case jumps =>
    obtain ⟨n, hn, hnext⟩ := jumpInstr_jumps ha hb htaken hnonneg
    exact ⟨_, hnext, hn, setPc_keeps_all_but_pc s n⟩
  case fallsThrough =>
    obtain ⟨n, hn, hnext⟩ := jumpInstr_falls_through ha hb huntaken hpc
    exact ⟨_, hnext, hn, setPc_keeps_all_but_pc s n⟩

end

/-- Settles O22: JT is the conditional jump whose condition is that the first parameter is not 0. -/
theorem jtJumpsWhenNonZero : Obligations.JtJumpsWhenNonZero :=
  jumpRule_of_exec_eq_jumpInstr (fun _ _ => .jt) (fun _ _ => rfl) exec_jt_eq_jumpInstr

/-- Settles O23: JF is the conditional jump whose condition is that the first parameter is 0. -/
theorem jfJumpsWhenZero : Obligations.JfJumpsWhenZero :=
  jumpRule_of_exec_eq_jumpInstr (fun _ _ => .jf) (fun _ _ => rfl) exec_jf_eq_jumpInstr

/-! ### HALT -/

theorem exec_halt_eq_next_halt (s : State) : exec .halt s = .next s.halt := rfl

/-- The opcode of a word that is not negative is its remainder by 100, and 99 selects HALT whatever stands above it
(R82, R88, R90). -/
theorem decode_eq_halt_of_mod {w : Word} (hnonneg : 0 ≤ w.toInt) (hmod : w.toInt % 100 = 99) :
    decode w = .ok .halt := by
  have hw : w.toInt = w.toInt.toNat := (Int.toNat_of_nonneg hnonneg).symm
  have hopcode : (splitFields w.toInt.toNat).opcode = 99 := by
    show w.toInt.toNat % 100 = 99
    omega
  rw [decode_of_toInt_eq_natCast hw, selectInstr_eq_ok_iff_selects, hopcode]
  exact .halt

/-- Settles O25: HALT's whole effect is on `retval` and `status`, and a halted core takes no step. -/
theorem haltReturnsTheWordAtZero : Obligations.HaltReturnsTheWordAtZero := by
  intro s
  have hstop : step s.halt = .fault .haltedTakesNoStep := step_of_halted s.halt_status
  refine ⟨fun w => decode_eq_halt_of_mod, rfl, s.halt, exec_halt_eq_next_halt s, rfl, s.halt_status, rfl, rfl,
    ⟨fun _ => rfl, rfl⟩, ⟨rfl, rfl⟩, rfl, rfl, fun u hu => ?noStep⟩
  case noStep => cases hstop.symm.trans hu

end Sys2Proof.Claims

/-! SUPPORT. The relative base in the claims' terms: what ARB completes with once its operand is read, and the order in
which it faults (R170). -/

namespace Sys2Proof.Claims

open Sys2Proof.Machine

section

variable {s : State} {m : Mode} {c : Cause} {a : Int}

theorem exec_arb_eq_execArb (m : Mode) (s : State) : exec (.arb m) s = execArb m s := rfl

/-- Once the operand is read, what remains is the checked sum with the old base, the checked advance and the update
of `rb` (R170). -/
theorem execArb_of_readsAs (h : ReadsAs s 1 m a) :
    execArb m s = commit s (do
      let v ← chk (s.rb.toInt + a)
      let n ← chkPc s 2
      .ok ((s.setRb v).setPc n)) := by
  obtain ⟨w, hread, rfl⟩ := h.exists_rd
  rw [execArb, hread, ok_bind]

/-- Completion: a word of the sum's value becomes the base, and `pc` advances by 2 (R170). -/
theorem execArb_completes (h : ReadsAs s 1 m a) (hin : InIntW (s.rb.toInt + a)) (hpc : s.pc.val + 2 ≤ Config.AMAX) :
    ∃ (v : Word) (n : Addr), v.toInt = s.rb.toInt + a ∧ n.val = s.pc.val + 2 ∧
      execArb m s = .next ((s.setRb v).setPc n) := by
  have hv := toInt_ofInt hin
  obtain ⟨n, hchk, hn⟩ := exists_chkPc_eq_ok hpc
  refine ⟨Word.ofInt (s.rb.toInt + a), n, hv, hn, ?_⟩
  rw [execArb_of_readsAs h, chk_eq_ok.2 ⟨hin, hv⟩, ok_bind, hchk, ok_bind, commit_ok]

/-- The operand's first fault is taken first (R119). -/
theorem execArb_of_readFaults (h : ReadFaults s 1 m c) : execArb m s = .next (faultedWith s c) := by
  rw [execArb, rd_eq_error_iff_readFaults.2 h, error_bind, commit_error_eq_faultedWith]

/-- A sum outside `Int_W` faults once the operand is read (R170). -/
theorem execArb_sum_overflows (h : ReadsAs s 1 m a) (hout : ¬InIntW (s.rb.toInt + a)) :
    execArb m s = .next (faultedWith s .overflow) := by
  rw [execArb_of_readsAs h, chk_eq_error.2 ⟨hout, rfl⟩, error_bind, commit_error_eq_faultedWith]

/-- An advance beyond the address space faults, whether or not the sum is in range (R121). -/
theorem execArb_advance_overflows (h : ReadsAs s 1 m a) (hpc : Config.AMAX < s.pc.val + 2) :
    execArb m s = .next (faultedWith s .overflow) := by
  by_cases hin : InIntW (s.rb.toInt + a)
  · rw [execArb_of_readsAs h, chk_eq_ok.2 ⟨hin, toInt_ofInt hin⟩, ok_bind, chkPc_eq_error.2 ⟨hpc, rfl⟩, error_bind,
      commit_error_eq_faultedWith]
  · exact execArb_sum_overflows h hin

end

/-- Settles O24: the operand, the sum with the old base and the advance are examined in this order, and the completed
state differs from the old one in `rb` and `pc` alone. -/
theorem arbAddsToTheRelativeBase : Obligations.ArbAddsToTheRelativeBase := by
  intro ma s
  rw [exec_arb_eq_execArb]
  refine ⟨fun hma => ⟨decode_canonicalWord (m2 := .position) (m3 := .position) .arb hma rfl rfl, rfl⟩,
    fun a ha hin hpc => ?completes, fun c => execArb_of_readFaults, fun a => execArb_sum_overflows,
    fun a => execArb_advance_overflows⟩
  case completes =>
    obtain ⟨v, n, hv, hn, hnext⟩ := execArb_completes ha hin hpc
    exact ⟨_, hnext, hv, hn, ⟨fun _ => rfl, rfl⟩, ⟨rfl, rfl, rfl⟩, ⟨rfl, rfl⟩, rfl⟩

end Sys2Proof.Claims

/-! SUPPORT. Unknown opcodes in the claims' terms: which words the decoder refuses, and that no instruction ends in the
fault of a refused word, so that it is raised at dispatch alone (R91, R181). -/

namespace Sys2Proof.Claims

open Sys2Proof.Machine

/-! ### The words that are no instruction -/

theorem Selects.opcode_mem {m1 m2 m3 : Mode} {op : Nat} {i : Instr} (h : Selects m1 m2 m3 op i) :
    (op : Int) ∈ ([1, 2, 3, 4, 5, 6, 7, 8, 9, 99] : List Int) := by
  cases h <;> decide

/-- A word that is not negative and is an instruction has an opcode of the map in its two low digits (R82, R90). -/
theorem opcode_mem_of_decode_eq_ok {w : Word} {i : Instr} (hnonneg : 0 ≤ w.toInt) (h : decode w = .ok i) :
    w.toInt % 100 ∈ ([1, 2, 3, 4, 5, 6, 7, 8, 9, 99] : List Int) := by
  have hw : w.toInt = w.toInt.toNat := (Int.toNat_of_nonneg hnonneg).symm
  rw [decode_of_toInt_eq_natCast hw, selectInstr_eq_ok_iff_selects] at h
  have hopcode : ((splitFields w.toInt.toNat).opcode : Int) = w.toInt % 100 := by
    rw [splitFields, Int.natCast_mod, ← hw, Nat.cast_ofNat]
  exact hopcode ▸ h.opcode_mem

/-- A negative word is refused with its truncating remainder, any other one with its two low digits when they are no
opcode of the map (R83, R91). -/
theorem decode_eq_error_iff {w : Word} {op : Int} :
    decode w = .error (.unknownOpcode op) ↔
      w.toInt < 0 ∧ op = -(-w.toInt % 100) ∨
        0 ≤ w.toInt ∧ op = w.toInt % 100 ∧ op ∉ ([1, 2, 3, 4, 5, 6, 7, 8, 9, 99] : List Int) := by
  constructor
  · intro h
    refine (decodeValue_eq_error h).imp_right fun ⟨hnonneg, hop, hlow, hhalt⟩ => ⟨hnonneg, hop, ?_⟩
    simp only [List.mem_cons, List.not_mem_nil, or_false]
    omega
  · rintro (⟨hneg, rfl⟩ | ⟨hnonneg, rfl, hmem⟩)
    · rw [decode_eq, decodeValue, if_pos hneg]
    · cases h : decode w with
      | ok i => exact absurd (opcode_mem_of_decode_eq_ok hnonneg h) hmem
      | error e =>
        obtain ⟨op⟩ := e
        rcases decodeValue_eq_error h with ⟨hneg, -⟩ | ⟨-, rfl, -⟩
        · exact absurd hneg hnonneg.not_gt
        · rfl

/-! ### The faults of an instruction's stages -/

/-- The stage answers a result with the property `P`, or a fault that is not the dispatch's: any but `UnknownOpcode`
(R182 to R186). -/
def PastDispatch {α : Type} (P : α → Prop) : Except Cause α → Prop
  | .ok a => P a
  | .error c => ∀ op p, c ≠ .unknownOpcode op p

namespace PastDispatch

variable {α β : Type} {P : α → Prop} {Q : β → Prop}

theorem of_ne_error {x : Except Cause α} (h : ∀ op p, x ≠ .error (.unknownOpcode op p)) :
    PastDispatch (fun _ => True) x := by
  cases x with
  | ok a => trivial
  | error c => exact fun op p hc => h op p (congrArg Except.error hc)

theorem bind {x : Except Cause α} {f : α → Except Cause β} (hx : PastDispatch P x)
    (hf : ∀ a, PastDispatch Q (f a)) : PastDispatch Q (x >>= f) := by
  cases x with
  | ok a => exact hf a
  | error c => exact hx

end PastDispatch

section

variable {s t : State} {i : Instr}

theorem pastDispatch_rd (s : State) (k : Nat) (m : Mode) : PastDispatch (fun _ => True) (rd s k m) :=
  .of_ne_error fun _ _ h => by
    cases rd_eq_error_iff_readFaults.1 h with
    | address hfaults => cases hfaults

theorem pastDispatch_wr (s : State) (k : Nat) (m : Mode) : PastDispatch (fun _ => True) (wr s k m) :=
  .of_ne_error fun _ _ h => by
    cases wr_eq_error_iff_targetFaults.1 h with
    | address hfaults => cases hfaults

theorem pastDispatch_chk (v : Int) : PastDispatch (fun _ => True) (chk v : Except Cause Word) :=
  .of_ne_error fun _ _ h => nomatch (chk_eq_error.1 h).2

theorem pastDispatch_chkPc (s : State) (n : Nat) : PastDispatch (fun _ => True) (chkPc s n) :=
  .of_ne_error fun _ _ h => nomatch (chkPc_eq_error.1 h).2

theorem pastDispatch_addrOf (w : Word) : PastDispatch (fun _ => True) (addrOf w) :=
  .of_ne_error fun _ _ h => nomatch (addrOf_eq_error.1 h).2

theorem pastDispatch_nextInput (s : State) : PastDispatch (fun _ => True) (nextInput s) :=
  .of_ne_error fun _ _ h => nomatch (nextInput_eq_error.1 h).2

/-- The update of `pc` that ends an instruction leaves the fault record alone. -/
theorem pastDispatch_setPc {u : State} (hu : u.fault = s.fault) (n : Addr) :
    PastDispatch (fun v : State => v.fault = s.fault) (.ok (u.setPc n)) := hu

/-! ### The fault record after an instruction -/

/-- What an instruction leaves in the fault record: what was there, or a fault that is not the dispatch's. -/
def FaultPastDispatch (s t : State) : Prop :=
  t.fault = s.fault ∨ ∃ c, t.fault = some c ∧ ∀ op p, c ≠ .unknownOpcode op p

theorem faultPastDispatch_of_commit {r : Except Cause State} (h : commit s r = .next t)
    (hr : PastDispatch (fun u => u.fault = s.fault) r) : FaultPastDispatch s t := by
  rcases commit_eq_next.1 h with rfl | ⟨c, rfl, rfl⟩
  · exact .inl hr
  · exact .inr ⟨c, rfl, hr⟩

theorem aluInstr_faultPastDispatch {op : AluOp} {ma mb md : Mode} (h : aluInstr op ma mb md s = .next t) :
    FaultPastDispatch s t :=
  faultPastDispatch_of_commit h
    ((pastDispatch_rd s 1 ma).bind fun a => (pastDispatch_rd s 2 mb).bind fun b => (pastDispatch_wr s 3 md).bind
      fun _ => (pastDispatch_chk (alu op a.toInt b.toInt)).bind fun _ => (pastDispatch_chkPc s 4).bind
      (pastDispatch_setPc rfl))

theorem execIn_faultPastDispatch {m : Mode} (h : execIn m s = .next t) : FaultPastDispatch s t :=
  faultPastDispatch_of_commit h
    ((pastDispatch_wr s 1 m).bind fun _ => (pastDispatch_nextInput s).bind fun _ => (pastDispatch_chkPc s 2).bind
      (pastDispatch_setPc rfl))

theorem execOut_faultPastDispatch {m : Mode} (h : execOut m s = .next t) : FaultPastDispatch s t :=
  faultPastDispatch_of_commit h
    ((pastDispatch_rd s 1 m).bind fun _ => (pastDispatch_chkPc s 2).bind (pastDispatch_setPc rfl))

theorem execArb_faultPastDispatch {m : Mode} (h : execArb m s = .next t) : FaultPastDispatch s t :=
  faultPastDispatch_of_commit h
    ((pastDispatch_rd s 1 m).bind fun a => (pastDispatch_chk (s.rb.toInt + a.toInt)).bind fun _ =>
      (pastDispatch_chkPc s 2).bind (pastDispatch_setPc rfl))

/-- Both ways on from a jump end in the update of `pc`. -/
theorem jumpInstr_faultPastDispatch {taken : Int → Prop} [DecidablePred taken] {ma mb : Mode}
    (h : jumpInstr taken ma mb s = .next t) : FaultPastDispatch s t := by
  refine faultPastDispatch_of_commit h
    ((pastDispatch_rd s 1 ma).bind fun a => (pastDispatch_rd s 2 mb).bind fun b => ?_)
  split
  · exact (pastDispatch_addrOf b).bind (pastDispatch_setPc rfl)
  · exact (pastDispatch_chkPc s 3).bind (pastDispatch_setPc rfl)

/-- No instruction records `UnknownOpcode` (R181). -/
theorem exec_faultPastDispatch (h : exec i s = .next t) : FaultPastDispatch s t := by
  cases i with
  | add | mul | lt | eq => exact aluInstr_faultPastDispatch h
  | inp => exact execIn_faultPastDispatch h
  | out => exact execOut_faultPastDispatch h
  | arb => exact execArb_faultPastDispatch h
  | jt => exact jumpInstr_faultPastDispatch ((exec_jt_eq_jumpInstr _ _ s).symm.trans h)
  | jf => exact jumpInstr_faultPastDispatch ((exec_jf_eq_jumpInstr _ _ s).symm.trans h)
  | halt =>
    obtain rfl : s.halt = t := Host.Outcome.next.inj h
    exact .inl rfl

/-- Where no fault is recorded, an instruction's next state is not the one in which `UnknownOpcode` is taken. -/
theorem exec_ne_faultedWith_unknownOpcode (hnone : s.fault = none) (op : Int) (p : Addr) :
    exec i s ≠ .next (faultedWith s (.unknownOpcode op p)) := by
  intro h
  rcases exec_faultPastDispatch h with hkept | ⟨c, hc, hpast⟩
  · cases hkept.trans hnone
  · exact hpast op p (Option.some.inj hc).symm

end

/-- Settles O28: the refused words are the negative ones and those whose low digits are no opcode, and the step on any
other word is an instruction, which does not raise `UnknownOpcode`. -/
theorem unknownOpcodeIsRaisedAtDispatch : Obligations.UnknownOpcodeIsRaisedAtDispatch := by
  intro s hrun
  refine ⟨fun hnonneg hmem => ⟨step_of_decode_eq_error hrun (decode_eq_error_iff.2 ?noOpcode), rfl⟩,
    fun hneg => ⟨step_of_decode_eq_error hrun (decode_eq_error_iff.2 ?negative), rfl⟩,
    fun hnonneg hmem op p hnone hstep => ?opcode⟩
  case noOpcode => exact .inr ⟨hnonneg, rfl, hmem⟩
  case negative => exact .inl ⟨hneg, rfl⟩
  case opcode =>
    obtain ⟨-, ⟨i, -, hexec⟩ | ⟨op', hdecode, -⟩⟩ := step_cases hstep
    · exact exec_ne_faultedWith_unknownOpcode hnone op p hexec
    · rcases decode_eq_error_iff.1 hdecode with ⟨hneg, -⟩ | ⟨-, rfl, hnot⟩
      · exact hnonneg.not_gt hneg
      · exact hnot hmem

end Sys2Proof.Claims

/-! SUPPORT. Encoding in the claims' terms: the canonical word, and statements and table words placed in memory (R80,
R93 to R96). -/

namespace Sys2Proof.Claims

open Sys2Proof.Machine

/-! ### The canonical word -/

/-- A well-formed instruction is what its own opcode and mode digits select; the digits of parameters that it has not
are 0, the digit of Position (R90, R95). -/
theorem exists_selects_of_wf {i : Instr} (h : i.wf = true) :
    ∃ m1 m2 m3 : Mode, m1.wf = true ∧ m2.wf = true ∧ m3.wf = true ∧
      i.modeDigits = (m1.digit, m2.digit, m3.digit) ∧ Selects m1 m2 m3 i.opcode i := by
  cases i with
  | add a b d | mul a b d | lt a b d | eq a b d =>
    obtain ⟨⟨ha, hb⟩, hd⟩ := (Bool.and_eq_true_iff.1 h).imp_left Bool.and_eq_true_iff.1
    exact ⟨a, b, d, ha, hb, hd, rfl, by constructor⟩
  | jt a b | jf a b =>
    obtain ⟨ha, hb⟩ := Bool.and_eq_true_iff.1 h
    exact ⟨a, b, .position, ha, hb, rfl, rfl, by constructor⟩
  | inp m | out m | arb m => exact ⟨m, .position, .position, h, rfl, rfl, rfl, by constructor⟩
  | halt => exact ⟨.position, .position, .position, rfl, rfl, rfl, rfl, .halt⟩

theorem encode_eq_ofInt (i : Instr) : encode i = Word.ofInt (encodeNat i) := (BitVec.ofInt_natCast _ _).symm

/-- The model's canonical value is the claims' one (R95). -/
theorem encodeNat_eq_canonicalWord {i : Instr} {d1 d2 d3 : Nat} (h : i.modeDigits = (d1, d2, d3)) :
    (encodeNat i : Int) = canonicalWord i.opcode d1 d2 d3 := by
  rw [canonicalWord, encodeNat, h]
  push_cast
  rfl

/-- The canonical word of a well-formed instruction decodes to it (R94). -/
theorem decode_encode {i : Instr} (h : i.wf = true) : decode (encode i) = .ok i := by
  obtain ⟨m1, m2, m3, h1, h2, h3, hdigits, hselects⟩ := exists_selects_of_wf h
  rw [encode_eq_ofInt, encodeNat_eq_canonicalWord hdigits]
  exact decode_canonicalWord hselects h1 h2 h3

theorem encodeNat_lt_of_wf {i : Instr} (h : i.wf = true) : encodeNat i < 100000 := by
  obtain ⟨m1, m2, m3, h1, h2, h3, hdigits, -⟩ := exists_selects_of_wf h
  have hop := Instr.opcode_lt i
  have hd1 := Mode.digit_lt h1
  have hd2 := Mode.digit_lt h2
  have hd3 := Mode.digit_lt h3
  simp only [encodeNat, hdigits]
  omega

/-- Five decimal digits do not reach the sign bit. -/
theorem toInt_encode {i : Instr} (h : i.wf = true) : (encode i).toInt = encodeNat i := by
  have hlt := encodeNat_lt_of_wf h
  have hin : InIntW (encodeNat i : Int) := by
    simp only [inIntW_iff, Config.W]
    omega
  rw [encode_eq_ofInt, toInt_ofInt hin]

/-- Settles O9: the canonical word has the instruction's opcode and mode digits, which select it, and no sign. -/
theorem decodeInvertsEncode : Obligations.DecodeInvertsEncode := by
  intro i h
  refine ⟨?nonneg, decode_encode h⟩
  case nonneg => exact toInt_encode h ▸ Int.natCast_nonneg _

theorem digit_modeOfDigit (d : Nat) : (modeOfDigit d).digit = d := by
  unfold modeOfDigit
  split_ifs <;> simp_all [Mode.digit]

/-- Of the numbers with given low digits that select an instruction the canonical one is the least: it has 0 for every
digit that the instruction does not use (R95). -/
theorem encodeNat_le_of_selects {op d1 d2 d3 : Nat} {i : Instr}
    (h : Selects (modeOfDigit d1) (modeOfDigit d2) (modeOfDigit d3) op i) :
    encodeNat i ≤ op + 100 * d1 + 1000 * d2 + 10000 * d3 := by
  cases h <;> simp only [encodeNat, Instr.opcode, Instr.modeDigits, digit_modeOfDigit] <;> omega

/-- Dropping the digits above the five places does not make a number greater (R82, R84). -/
theorem fields_le (n : Nat) :
    (splitFields n).opcode + 100 * (splitFields n).mode1 + 1000 * (splitFields n).mode2 +
      10000 * (splitFields n).mode3 ≤ n := by
  simp only [splitFields, digit]
  omega

theorem nonneg_of_decode_eq_ok {w : Word} {i : Instr} (h : decode w = .ok i) : 0 ≤ w.toInt := by
  by_contra hneg
  rw [decode_eq, decodeValue, if_pos (not_le.1 hneg)] at h
  cases h

/-- Settles O10: the word's own fields select the instruction, and the canonical word keeps only the fields in use. -/
theorem canonicalWordIsTheLeastEncoding : Obligations.CanonicalWordIsTheLeastEncoding := by
  intro w i h
  have hwf : i.wf = true := decodeValue_wf h
  refine ⟨hwf, decode_encode hwf, ?least⟩
  case least =>
    have hw : w.toInt = w.toInt.toNat := (Int.toNat_of_nonneg (nonneg_of_decode_eq_ok h)).symm
    have hselects := selectInstr_eq_ok_iff_selects.1 ((decode_of_toInt_eq_natCast hw).symm.trans h)
    rw [toInt_encode hwf, hw]
    exact Int.ofNat_le.2 ((encodeNat_le_of_selects hselects).trans (fields_le _))

/-- Settles O11: each word is closed data, on which the decoder is run. -/
theorem sampleWordsDecode : Obligations.SampleWordsDecode := by
  unfold Obligations.SampleWordsDecode
  decide

/-! ### Words placed in memory -/

theorem Operand.mode_wf (o : Operand) : o.mode.wf = true := by cases o <;> rfl

/-- A statement that names an instruction assembles to it and its raw parameters, as many as the instruction has
(R80, R96). -/
theorem Statement.words_of_instr {st : Statement} {i : Instr} {raws : List Word} (h : st.instr = some (i, raws)) :
    st.words = encodeWith i raws ∧ i.wf = true ∧ raws.length = i.paramCount := by
  cases st with
  | data => cases h
  | add | mul | lt | eq | jt | jf | inp | out | arb | halt =>
    cases h
    exact ⟨rfl, by simp only [Instr.wf, Operand.mode_wf, Bool.and_self], rfl⟩

/-- Settles O12: the first word of the statement is the canonical one, the next ones are its raw parameters. -/
theorem assembledStatementIsFetchedBack : Obligations.AssembledStatementIsFetchedBack := by
  intro st i raws s hinstr hplaced
  obtain ⟨hwords, hwf, hcount⟩ := Statement.words_of_instr hinstr
  simp only [hwords, encodeWith, List.length_cons] at hplaced ⊢
  refine ⟨?opcode, by rw [hcount, Instr.length, Nat.add_comm], fun k hk => ?raw⟩
  case opcode =>
    obtain ⟨-, hread⟩ := hplaced 0 (Nat.succ_pos _)
    have hfetch : s.memRead s.pc = encode i := hread
    rw [hfetch, decode_encode hwf]
  case raw =>
    obtain ⟨hreach, hread⟩ := hplaced (k + 1) (Nat.succ_lt_succ hk)
    rw [raw_of_reach hreach, hread, List.getElem_cons_succ]

/-- The first word that is placed at `pc` is the one fetched: the others lie above it (R111). -/
theorem memRead_placeWords_cons (s : State) (w : Word) (ws : List Word) :
    Memory.read (placeWords s 0 (w :: ws)).mem s.pc.val = w := by
  have hchk : chkPc s 0 = .ok s.pc := chkPc_eq_ok.2 rfl
  have hplace : placeWords s 0 (w :: ws) = placeWords (s.memWrite s.pc w) 1 ws := by
    simp only [placeWords, hchk, Nat.zero_add]
  obtain ⟨-, -, -, -, -, hbelow⟩ := placeWords_kept ws (s.memWrite s.pc w) 1
  rw [hplace, hbelow s.pc.val (Nat.lt_succ_self _), State.Of.memWrite_mem, Memory.read_write_self]

/-- Settles O27: the placed words make the core run the instruction that the first of them decodes to. -/
theorem placedWordIsRunNext : Obligations.PlacedWordIsRunNext := by
  intro s nbits w i h
  obtain ⟨first, rest, hwords⟩ : ∃ first rest, tableWords nbits w = first :: rest := ⟨_, _, rfl⟩
  obtain ⟨hpc, hrb, hinput, hcursor, hout, -⟩ := placeWords_kept (tableWords nbits w) s 0
  have hdecode : decode first = .ok i := by
    simp only [decodeTableWord, hwords] at h
    cases hd : decode first with
    | ok j => rw [hd] at h; exact congrArg _ (Option.some.inj h)
    | error e => rw [hd] at h; cases h
  have hfetch : (s.withFetchWord nbits w).memRead (s.withFetchWord nbits w).pc = first := by
    show Memory.read (placeWords s 0 (tableWords nbits w)).mem (placeWords s 0 (tableWords nbits w)).pc.val = first
    rw [hpc, hwords, memRead_placeWords_cons]
  exact ⟨step_of_runs ⟨rfl, hfetch ▸ hdecode⟩, hpc, hrb, ⟨hinput, hcursor⟩, hout⟩

end Sys2Proof.Claims

/-! SUPPORT. Words, the store's canonical form, launches that are refused, the ends of a run, and the fault record
(R5, R29, R71, R211 to R216). -/

namespace Sys2Proof.Claims

open Sys2Proof.Machine

/-! ### Words at every width -/

/-- Every value of `Int_W` is a word's value (R4, R51). -/
theorem exists_toInt_eq_of_inIntW {W : Nat} [NeZero W] {v : Int} (h : InIntW v W) : ∃ w : Word W, w.toInt = v :=
  ⟨_, toInt_ofInt h⟩

/-- Settles O1: the range in powers of two, at 64. -/
theorem wordRangeIsSixtyFourBitSigned : Obligations.WordRangeIsSixtyFourBitSigned := by
  refine ⟨fun v => ?range, rfl, Word.inIntW, fun v => exists_toInt_eq_of_inIntW⟩
  case range =>
    rw [inIntW_iff]
    norm_num

/-- Settles O44: the range in powers of two, which grows with the width. -/
theorem everyWidthHasItsRange : Obligations.EveryWidthHasItsRange := by
  intro W hW
  have : NeZero W := ⟨by omega⟩
  exact ⟨fun v => inIntW_iff, amax_cast W, Word.inIntW, fun v => exists_toInt_eq_of_inIntW,
    fun v => inIntW_mono hW⟩

/-! ### The canonical form of the store -/

section

variable {W : Nat} {m m' : Memory W}

/-- The canonical form lists exactly the words that are not 0, each at its own address (R71). -/
theorem mem_iff_read_of_wf (h : Memory.wf m = true) {a : Nat} {v : Word W} :
    (a, v) ∈ m ↔ Memory.read m a = v ∧ v ≠ 0 := by
  induction m with
  | nil => exact ⟨nofun, fun ⟨hread, hv⟩ => absurd hread.symm hv⟩
  | cons e rest ih =>
    obtain ⟨k, w⟩ := e
    obtain ⟨-, hw, habove, hrest⟩ := Memory.wf_cons.1 h
    by_cases hk : k = a
    · subst hk
      have hnot : (k, v) ∉ rest := fun hmem => lt_irrefl k (habove _ hmem)
      rw [List.mem_cons, Memory.read, if_pos rfl, Prod.mk.injEq]
      constructor
      · rintro (⟨-, rfl⟩ | hmem)
        · exact ⟨rfl, hw⟩
        · exact absurd hmem hnot
      · rintro ⟨rfl, -⟩
        exact .inl ⟨rfl, rfl⟩
    · rw [List.mem_cons, Memory.read, if_neg hk, ← ih hrest, Prod.mk.injEq]
      exact or_iff_right fun ⟨ha, _⟩ => hk ha.symm

/-- The canonical form lists its addresses in strictly rising order. -/
theorem pairwise_lt_of_wf (h : Memory.wf m = true) : m.Pairwise (Prod.fst ⁻¹'o (· < ·)) := by
  induction m with
  | nil => exact .nil
  | cons e rest ih =>
    obtain ⟨-, -, habove, hrest⟩ := Memory.wf_cons.1 h
    exact .cons habove (ih hrest)

end

/-- Settles O7: stores that read alike list the same words, and both list them in rising order. -/
theorem canonicalMemoryIsDeterminedByItsReads : Obligations.CanonicalMemoryIsDeterminedByItsReads := by
  intro m m' hm hm' hread
  refine (pairwise_lt_of_wf hm).eq_of_mem_iff (pairwise_lt_of_wf hm') fun ⟨a, v⟩ => ?_
  rw [mem_iff_read_of_wf hm, mem_iff_read_of_wf hm', hread]

/-! ### Launches -/

/-- A launch that is accepted offers values of `Int_W` only, in an image that fits, and answers the boot state (R210,
R211). -/
theorem launchAt_eq_next_iff {W : Nat} {image input : List Int} {s : State.Of W} :
    launchAt W image input = .next s ↔
      (∀ v ∈ image ++ input, InIntW v W) ∧ image.length ≤ Config.AMAX W + 1 ∧
        s = State.Of.boot (image.map Word.ofInt) (input.map Word.ofInt) := by
  constructor
  · intro h
    have hs := eq_boot_of_launchAt_eq_next h
    unfold launchAt at h
    split at h
    · cases h
    · next hnone =>
      split at h
      · next hlen => exact ⟨firstOutside_eq_none.1 hnone, hlen, hs⟩
      · cases h
  · rintro ⟨hvalues, hlen, rfl⟩
    obtain ⟨himage, hinput⟩ := List.forall_mem_append.1 hvalues
    exact launchAt_eq_boot himage hinput hlen

/-- A launch is accepted or refused, and takes no fault (R211). -/
theorem launchAt_next_or_refused (W : Nat) (image input : List Int) :
    (∃ s, launchAt W image input = .next s) ∨ ∃ r, launchAt W image input = .refused r := by
  unfold launchAt
  split
  · exact .inr ⟨_, rfl⟩
  · split
    · exact .inl ⟨_, rfl⟩
    · exact .inr ⟨_, rfl⟩

/-- Settles O3: what the host may not offer is not accepted. -/
theorem launchRefusesWhatTheHostMayNotOffer : Obligations.LaunchRefusesWhatTheHostMayNotOffer := by
  intro image input hbad
  refine (launchAt_next_or_refused Config.W image input).resolve_left ?notAccepted
  case notAccepted =>
    rintro ⟨s, hs⟩
    obtain ⟨hvalues, hlen, -⟩ := launchAt_eq_next_iff.1 hs
    rcases hbad with ⟨v, hv, hout⟩ | hlong
    · exact hout (hvalues v hv)
    · exact hlen.not_gt hlong

/-- Settles O4: both are the boot state of no words. -/
theorem resetIsTheEmptyLaunch : Obligations.ResetIsTheEmptyLaunch := rfl

/-! ### Dispatch and the width of this hardware -/

/-- Settles O26: the branches of the step. -/
theorem stepRunsTheDecodedInstruction : Obligations.StepRunsTheDecodedInstruction := fun _ =>
  ⟨fun _ hrun hi => step_of_runs ⟨hrun, hi⟩, fun _ => step_of_decode_eq_error, step_of_halted, step_of_faulted⟩

theorem exec_eq_execAt : exec = execAt (W := Config.W) := by
  funext i s
  cases i <;> rfl

theorem step_eq_stepAt : step = stepAt (W := Config.W) := by
  funext s
  rw [step, stepAt, exec_eq_execAt]

theorem runFor_eq_runAt (n : Nat) (s : State) : runFor n s = runAt n s := by rw [runFor, runAt, step_eq_stepAt]

/-- Settles O45: dispatch is the same case by case, and the others are made of it. -/
theorem thisHardwareHasTheWidth64 : Obligations.ThisHardwareHasTheWidth64 :=
  ⟨fun i s => congrFun (congrFun exec_eq_execAt i) s, congrFun step_eq_stepAt, runFor_eq_runAt, fun _ _ => rfl⟩

/-! ### The fault record and the ends of a run -/

section

open State.Of

variable {W : Nat} {s : State.Of W}

/-- The codes are 1 to 6 (R29, R180). -/
theorem record_cause_range (c : Cause.Of W) : 1 ≤ c.record.cause ∧ c.record.cause ≤ 6 := by
  cases c <;> simp [Cause.Of.record]

theorem faultRecord_of_eq_some {c : Cause.Of W} (h : s.fault = some c) : s.faultRecord = c.record := by
  rw [faultRecord, h]

theorem faultRecord_of_eq_none (h : s.fault = none) : s.faultRecord = { cause := 0, info1 := 0, info2 := 0 } := by
  rw [faultRecord, h]

theorem fault_eq_none_of_inv (h : s.Inv) (hs : s.status ≠ .faulted) : s.fault = none := by
  rw [← Option.not_isSome_iff_eq_none, h.faultIffFaulted]
  exact hs

theorem exists_fault_eq_some_of_inv (h : s.Inv) (hs : s.status = .faulted) : ∃ c, s.fault = some c :=
  Option.isSome_iff_exists.1 (h.faultIffFaulted.2 hs)

/-- Under the invariant a cause other than 0 stands for the faulted status (R29). -/
theorem cause_ne_zero_iff_of_inv (h : s.Inv) : s.faultRecord.cause ≠ 0 ↔ s.status = .faulted := by
  constructor
  · intro hcause
    by_contra hs
    exact hcause (by rw [faultRecord_of_eq_none (fault_eq_none_of_inv h hs)])
  · intro hs
    obtain ⟨c, hc⟩ := exists_fault_eq_some_of_inv h hs
    rw [faultRecord_of_eq_some hc]
    exact Nat.one_le_iff_ne_zero.1 (record_cause_range c).1

end

/-- Settles O31: the invariant leaves no cause in a core that is not faulted; each cause has its code and payload. -/
theorem faultRecordHoldsCodeAndPayload : Obligations.FaultRecordHoldsCodeAndPayload := fun _ =>
  ⟨fun hinv hs => faultRecord_of_eq_none (fault_eq_none_of_inv hinv hs), fun _ _ => rfl, fun _ => rfl, rfl, rfl, rfl,
    rfl⟩

/-- Settles O5: the host's view in each terminal status, with the return value and the cause that the invariant
gives. -/
theorem hostSeesTheEndOfTheRun : Obligations.HostSeesTheEndOfTheRun := by
  intro s hinv
  refine ⟨rfl, fun hs => ?halted, fun hs => ?faulted⟩
  case halted =>
    have hret := hinv.retvalHalted hs
    simp [State.Of.observe, State.Of.diagnosticDump, hs, hret, Status.code]
  case faulted =>
    obtain ⟨c, hc⟩ := exists_fault_eq_some_of_inv hinv hs
    have hrange := record_cause_range c
    simp [State.Of.observe, State.Of.diagnosticDump, hs, Status.code, faultRecord_of_eq_some hc, hrange]

end Sys2Proof.Claims

/-! SUPPORT. What a step does to the state as data: the faults an instruction can take and the one update it completes
with, at any width (R119, R120).  The step reads the state to find its effect, and only then changes it. -/

namespace Sys2Proof.Claims

open Sys2Proof.Machine

variable {W : Nat}

/-- The update that an instruction completes with: the new `pc`, and one other element at most. -/
inductive Effect (W : Nat) where
  /-- HALT: the return value (R157) -/
  | halt (retval : Word W)
  /-- JT and JF (R155, R156) -/
  | jump (n : Addr W)
  /-- OUT (R146) -/
  | output (v : Word W) (n : Addr W)
  /-- ARB (R170) -/
  | rebase (v : Word W) (n : Addr W)
  /-- ADD, MUL, LT and EQ (R130) -/
  | store (d : Addr W) (v : Word W) (n : Addr W)
  /-- IN (R145) -/
  | input (d : Addr W) (v : Word W) (n : Addr W)

/-- The state after an effect. -/
def Effect.apply (s : State.Of W) : Effect W → State.Of W
  | .halt v => { s with retval := v, status := .halted }
  | .jump n => s.setPc n
  | .output v n => (s.pushOut v).setPc n
  | .rebase v n => (s.setRb v).setPc n
  | .store d v n => (s.memWrite d v).setPc n
  | .input d v n => ((s.memWrite d v).consumeInput).setPc n

/-- The address that an effect writes. -/
def Effect.target : Effect W → Option (Addr W)
  | .store d _ _ | .input d _ _ => some d
  | .halt _ | .jump _ | .output _ _ | .rebase _ _ => none

/-! ### The effect of each instruction -/

/-- ADD, MUL, LT and EQ: the stages in the order of R119, then the result to store (R130). -/
def aluEffect (op : AluOp) (ma mb md : Mode) (s : State.Of W) : Except (Cause.Of W) (Effect W) := do
  let a ← rd s 1 ma
  let b ← rd s 2 mb
  let d ← wr s 3 md
  let r ← chk (alu op a.toInt b.toInt)
  let n ← chkPc s 4
  .ok (.store d r n)

/-- IN: the target is resolved before the input is examined (R145). -/
def inEffect (md : Mode) (s : State.Of W) : Except (Cause.Of W) (Effect W) := do
  let d ← wr s 1 md
  let v ← nextInput s
  let n ← chkPc s 2
  .ok (.input d v n)

/-- OUT (R146). -/
def outEffect (ma : Mode) (s : State.Of W) : Except (Cause.Of W) (Effect W) := do
  let a ← rd s 1 ma
  let n ← chkPc s 2
  .ok (.output a n)

/-- ARB: the operand is read with the old base (R170). -/
def arbEffect (ma : Mode) (s : State.Of W) : Except (Cause.Of W) (Effect W) := do
  let a ← rd s 1 ma
  let v ← chk (s.rb.toInt + a.toInt)
  let n ← chkPc s 2
  .ok (.rebase v n)

/-- Where a conditional jump goes on: at its second operand when the truth of the first one is `taken`, else behind it
(R155, R156). -/
def jumpTarget (taken : Bool) (a b : Word W) (s : State.Of W) : Except (Cause.Of W) (Addr W) :=
  if wordIsTrue a = taken then addrOf b else chkPc s 3

/-- JT and JF: both parameters are resolved, whether or not the jump is taken (R119). -/
def jumpEffect (taken : Bool) (ma mb : Mode) (s : State.Of W) : Except (Cause.Of W) (Effect W) := do
  let a ← rd s 1 ma
  let b ← rd s 2 mb
  let n ← jumpTarget taken a b s
  .ok (.jump n)

/-- The effect that an instruction completes with, or its first fault (R119). -/
def instrEffect (i : Instr) (s : State.Of W) : Except (Cause.Of W) (Effect W) :=
  match i with
  | .add a b d => aluEffect .add a b d s
  | .mul a b d => aluEffect .mul a b d s
  | .lt a b d => aluEffect .lessThan a b d s
  | .eq a b d => aluEffect .equals a b d s
  | .inp d => inEffect d s
  | .out a => outEffect a s
  | .jt a b => jumpEffect true a b s
  | .jf a b => jumpEffect false a b s
  | .arb a => arbEffect a s
  | .halt => .ok (.halt (s.memRead 0))

/-- The effect of the step of a running core, or its fault (R110). -/
def stepEffect (s : State.Of W) : Except (Cause.Of W) (Effect W) :=
  match decodeValue (fetch s).toInt with
  | .error e => .error (causeOfDecodeError e s)
  | .ok i => instrEffect i s

section

variable {s : State.Of W}

theorem stepEffect_of_decode {i : Instr} (h : decodeValue (fetch s).toInt = .ok i) :
    stepEffect s = instrEffect i s := by
  simp only [stepEffect, h]

theorem stepEffect_of_refused {e : DecodeError} (h : decodeValue (fetch s).toInt = .error e) :
    stepEffect s = .error (causeOfDecodeError e s) := by
  simp only [stepEffect, h]

end

/-! ### The model's step is the application of its effect -/

/-- The state that ends an instruction: the effect applied, or the fault taken (R120). -/
def outcomeOf (s : State.Of W) : Except (Cause.Of W) (Effect W) → State.Of W
  | .ok e => e.apply s
  | .error c => s.raise c

theorem commit_map_apply (s : State.Of W) (x : Except (Cause.Of W) (Effect W)) :
    commit s (Effect.apply s <$> x) = .next (outcomeOf s x) := by cases x <;> rfl

theorem map_apply_jump (s : State.Of W) (x : Except (Cause.Of W) (Addr W)) :
    (x >>= fun n => Effect.apply s <$> Except.ok (.jump n)) = x >>= fun n => .ok (s.setPc n) := rfl

theorem jumpTarget_bind_setPc (taken : Bool) (a b : Word W) (s : State.Of W) :
    (jumpTarget taken a b s >>= fun n => .ok (s.setPc n)) =
      if wordIsTrue a = taken then jumpTo s b else fallThrough s 3 := by
  unfold jumpTarget
  split <;> rfl

theorem execJt_eq_commit (ma mb : Mode) (s : State.Of W) :
    execJt ma mb s = commit s (Effect.apply s <$> jumpEffect true ma mb s) := by
  simp only [execJt, jumpEffect, map_bind, map_apply_jump, jumpTarget_bind_setPc]

/-- JF is written with its branches the other way round (R156). -/
theorem execJf_eq_commit (ma mb : Mode) (s : State.Of W) :
    execJf ma mb s = commit s (Effect.apply s <$> jumpEffect false ma mb s) := by
  simp only [execJf, jumpEffect, map_bind, map_apply_jump, jumpTarget_bind_setPc, ← Bool.not_eq_true, ite_not]

/-- Every instruction applies its effect or takes its fault. -/
theorem execAt_eq_next_outcomeOf (i : Instr) (s : State.Of W) : execAt i s = .next (outcomeOf s (instrEffect i s)) := by
  rw [← commit_map_apply]
  cases i with
  | add | mul | lt | eq | inp | out | arb =>
    simp only [instrEffect, aluEffect, inEffect, outEffect, arbEffect, map_bind]
    rfl
  | jt a b => exact execJt_eq_commit a b s
  | jf a b => exact execJf_eq_commit a b s
  | halt => rfl

/-- So does every step of a running core. -/
theorem stepAt_of_running {s : State.Of W} (hrun : s.status = .running) :
    stepAt s = .next (outcomeOf s (stepEffect s)) := by
  simp only [stepAt, stepWith, hrun]
  cases hdecode : decodeValue (fetch s).toInt with
  | ok i => simp only [stepEffect_of_decode hdecode, execAt_eq_next_outcomeOf]
  | error e => simp only [stepEffect_of_refused hdecode, outcomeOf]

theorem stepAt_eq_next_iff {s t : State.Of W} :
    stepAt s = .next t ↔ s.status = .running ∧ t = outcomeOf s (stepEffect s) := by
  constructor
  · intro h
    have hrun := (stepWith_cases h).1
    exact ⟨hrun, Host.Outcome.next.inj (h.symm.trans (stepAt_of_running hrun))⟩
  · rintro ⟨hrun, rfl⟩
    exact stepAt_of_running hrun

/-- A step leaves the core faulted exactly when it has no effect but a fault (R120). -/
theorem outcomeOf_status_eq_faulted_iff {s : State.Of W} (hrun : s.status = .running)
    {x : Except (Cause.Of W) (Effect W)} : (outcomeOf s x).status = .faulted ↔ ∃ c, x = .error c := by
  cases x with
  | error c => exact ⟨fun _ => ⟨c, rfl⟩, fun _ => rfl⟩
  | ok e =>
    refine ⟨fun h => ?_, nofun⟩
    cases e with
    | halt => cases h
    | jump | output | rebase | store | input => cases hrun.symm.trans h

/-! ### The instruction that an effect comes from -/

/-- The instruction has this effect in the state: which instructions have each effect, and what they read for it. -/
def Effect.From (i : Instr) (s : State.Of W) : Effect W → Prop
  | .halt v => i = .halt ∧ v = s.memRead 0
  | .jump _ => IsJump i
  | .output _ _ => ∃ m, i = .out m
  | .rebase _ _ => ∃ m, i = .arb m
  | .store d _ _ => ∃ m, HasTarget m i ∧ wr s (usedModes i).length m = .ok d
  | .input d v _ => ∃ m, i = .inp m ∧ wr s 1 m = .ok d ∧ nextInput s = .ok v

theorem aluEffect_eq_ok {op : AluOp} {ma mb md : Mode} {s : State.Of W} {e : Effect W}
    (h : aluEffect op ma mb md s = .ok e) : ∃ d v n, wr s 3 md = .ok d ∧ e = .store d v n := by
  simp only [aluEffect, bind_eq_ok, Except.ok.injEq] at h
  obtain ⟨a, -, b, -, d, hd, r, -, n, -, rfl⟩ := h
  exact ⟨d, r, n, hd, rfl⟩

theorem jumpEffect_eq_ok {taken : Bool} {ma mb : Mode} {s : State.Of W} {e : Effect W}
    (h : jumpEffect taken ma mb s = .ok e) : ∃ n, e = .jump n := by
  simp only [jumpEffect, bind_eq_ok, Except.ok.injEq] at h
  obtain ⟨a, -, b, -, n, -, rfl⟩ := h
  exact ⟨n, rfl⟩

theorem instrEffect_eq_ok {i : Instr} {s : State.Of W} {e : Effect W} (h : instrEffect i s = .ok e) : e.From i s := by
  cases i with
  | add a b md | mul a b md | lt a b md | eq a b md =>
    obtain ⟨d, v, n, hd, rfl⟩ := aluEffect_eq_ok h
    exact ⟨md, by constructor, hd⟩
  | jt a b | jf a b =>
    obtain ⟨n, rfl⟩ := jumpEffect_eq_ok h
    constructor
  | inp m =>
    simp only [instrEffect, inEffect, bind_eq_ok, Except.ok.injEq] at h
    obtain ⟨d, hd, v, hv, n, -, rfl⟩ := h
    exact ⟨m, rfl, hd, hv⟩
  | out m =>
    simp only [instrEffect, outEffect, bind_eq_ok, Except.ok.injEq] at h
    obtain ⟨a, -, n, -, rfl⟩ := h
    exact ⟨m, rfl⟩
  | arb m =>
    simp only [instrEffect, arbEffect, bind_eq_ok, Except.ok.injEq] at h
    obtain ⟨a, -, v, -, n, -, rfl⟩ := h
    exact ⟨m, rfl⟩
  | halt =>
    obtain rfl := Except.ok.inj h
    exact ⟨rfl, rfl⟩

/-- The effect of a step is that of the instruction which the word at `pc` decodes to (R110). -/
theorem stepEffect_eq_ok {s : State.Of W} {e : Effect W} (h : stepEffect s = .ok e) :
    ∃ i, decodeValue (s.memRead s.pc).toInt = .ok i ∧ e.From i s := by
  cases hdecode : decodeValue (fetch s).toInt with
  | error c =>
    rw [stepEffect_of_refused hdecode] at h
    cases h
  | ok i =>
    rw [stepEffect_of_decode hdecode] at h
    exact ⟨i, hdecode, instrEffect_eq_ok h⟩

/-- The input that IN reads is there (R30, R145). -/
theorem inCursor_lt_of_nextInput {s : State.Of W} {v : Word W} (h : nextInput s = .ok v) :
    s.inCursor < s.input.length := (List.getElem?_eq_some_iff.1 (nextInput_eq_ok.1 h)).1

/-! ### What the effect is read from -/

/-- The effect is read from memory, `pc`, `rb` and the input alone. -/
theorem stepEffect_congr {s s' : State.Of W} (hmem : s'.mem = s.mem) (hpc : s'.pc = s.pc) (hrb : s'.rb = s.rb)
    (hinput : s'.input = s.input) (hcursor : s'.inCursor = s.inCursor) : stepEffect s' = stepEffect s := by
  obtain ⟨mem, _, pc, rb, _, _, input, cursor, _, _⟩ := s
  cases hmem
  cases hpc
  cases hrb
  cases hinput
  cases hcursor
  rfl

end Sys2Proof.Claims

/-! SUPPORT. The invariant of reachable states at every width: the launch has it and every step keeps it (R37; R20, R29,
R30, R32, R33). -/

namespace Sys2Proof.Claims

open Sys2Proof.Machine

variable {W : Nat}

/-! ### The launch -/

/-- The state after reset has the invariant when its image fits the address space (R36, R37). -/
theorem inv_boot {image : List (Word W)} (input : List (Word W)) (h : image.length ≤ Config.AMAX W + 1) :
    (State.Of.boot image input).Inv where
  memWf := Memory.ofImage_wf image 0 (by rwa [Nat.zero_add])
  memBelowExtent _ ha := read_boot_of_length_le input ha
  extentRange := h
  cursorRange := Nat.zero_le _
  faultIffFaulted := ⟨nofun, nofun⟩
  faultPayload := nofun
  retvalHalted := nofun
  retvalZero _ := rfl

theorem inv_of_launchAt_eq_next {image input : List Int} {s : State.Of W} (h : launchAt W image input = .next s) :
    s.Inv := by
  obtain ⟨-, hlen, rfl⟩ := launchAt_eq_next_iff.1 h
  exact inv_boot _ (by rwa [List.length_map])

/-- Settles O36: the launch has it at every width. -/
theorem invariantHoldsAfterLaunch : Obligations.InvariantHoldsAfterLaunch := fun _ _ _ => inv_of_launchAt_eq_next

/-- Settles O35: the state after reset is the launch of an empty image. -/
theorem invariantHoldsAtReset : Obligations.InvariantHoldsAtReset :=
  inv_of_launchAt_eq_next resetIsTheEmptyLaunch

/-! ### The payload of a fault -/

/-- Every fault that the stage can take has a payload that the spec allows, whatever `pc` is (R29): it is not the
dispatch's, and records no digit of a mode that there is. -/
def FaultsLegally {α : Type} (x : Except (Cause.Of W) α) : Prop :=
  ∀ c, x = .error c → ∀ pc, payloadOk pc c = true

section

variable {s : State.Of W} {k : Nat} {m : Mode}

theorem FaultsLegally.ok {α : Type} (a : α) : FaultsLegally (.ok a : Except (Cause.Of W) α) := nofun

theorem FaultsLegally.bind {α β : Type} {x : Except (Cause.Of W) α} {f : α → Except (Cause.Of W) β}
    (hx : FaultsLegally x) (hf : ∀ a, FaultsLegally (f a)) : FaultsLegally (x >>= f) := by
  intro c h
  rcases bind_eq_error.1 h with h | ⟨a, -, h⟩
  · exact hx c h
  · exact hf a c h

theorem FaultsLegally.of_cause {α : Type} {x : Except (Cause.Of W) α} {c : Cause.Of W}
    (hx : ∀ c', x = .error c' → c' = c) (hc : ∀ pc, payloadOk pc c = true) : FaultsLegally x := by
  intro c' h
  rw [hx c' h]
  exact hc

theorem faultsLegally_chk (v : Int) : FaultsLegally (chk v : Except (Cause.Of W) (Word W)) :=
  .of_cause (fun _ h => (chk_eq_error.1 h).2) fun _ => rfl

theorem faultsLegally_chkPc (s : State.Of W) (n : Nat) : FaultsLegally (chkPc s n) :=
  .of_cause (fun _ h => (chkPc_eq_error.1 h).2) fun _ => rfl

theorem faultsLegally_addrOf (w : Word W) : FaultsLegally (addrOf w) :=
  .of_cause (fun _ h => (addrOf_eq_error.1 h).2) fun _ => rfl

theorem faultsLegally_nextInput (s : State.Of W) : FaultsLegally (nextInput s) :=
  .of_cause (fun _ h => (nextInput_eq_error.1 h).2) fun _ => rfl

theorem faultsLegally_raw (s : State.Of W) (k : Nat) : FaultsLegally (raw s k) :=
  (faultsLegally_chkPc s k).bind fun _ => .ok _

theorem faultsLegally_paramAddr (s : State.Of W) (k : Nat) (m : AddrMode) : FaultsLegally (paramAddr s k m) :=
  (faultsLegally_raw s k).bind fun r =>
    match m with
    | .position => faultsLegally_addrOf r
    | .relative => (faultsLegally_chk _).bind faultsLegally_addrOf

/-- A well-formed mode that is unknown has a digit of 3 to 9 (R85, R182). -/
theorem faultsLegally_unknownMode {α : Type} {d : Nat} (h : (Mode.unknown d).wf = true) :
    FaultsLegally (.error (.unknownParameterMode d) : Except (Cause.Of W) α) :=
  .of_cause (fun _ hc => (Except.error.inj hc).symm) fun _ => h

theorem faultsLegally_rd (s : State.Of W) (k : Nat) (h : m.wf = true) : FaultsLegally (rd s k m) :=
  match m with
  | .unknown _ => faultsLegally_unknownMode h
  | .immediate => faultsLegally_raw s k
  | .position => (faultsLegally_paramAddr s k .position).bind fun _ => .ok _
  | .relative => (faultsLegally_paramAddr s k .relative).bind fun _ => .ok _

theorem faultsLegally_wr (s : State.Of W) (k : Nat) (h : m.wf = true) : FaultsLegally (wr s k m) :=
  match m with
  | .unknown _ => faultsLegally_unknownMode h
  | .immediate => .of_cause (fun _ hc => (Except.error.inj hc).symm) fun _ => rfl
  | .position => faultsLegally_paramAddr s k .position
  | .relative => faultsLegally_paramAddr s k .relative

theorem faultsLegally_jumpTarget (taken : Bool) (a b : Word W) (s : State.Of W) :
    FaultsLegally (jumpTarget taken a b s) := by
  unfold jumpTarget
  split
  · exact faultsLegally_addrOf b
  · exact faultsLegally_chkPc s 3

theorem faultsLegally_aluEffect (op : AluOp) {ma mb md : Mode} (s : State.Of W)
    (h : (ma.wf && mb.wf && md.wf) = true) : FaultsLegally (aluEffect op ma mb md s) := by
  obtain ⟨⟨ha, hb⟩, hd⟩ := (Bool.and_eq_true_iff.1 h).imp_left Bool.and_eq_true_iff.1
  exact (faultsLegally_rd s 1 ha).bind fun a => (faultsLegally_rd s 2 hb).bind fun b =>
    (faultsLegally_wr s 3 hd).bind fun _ => (faultsLegally_chk (alu op a.toInt b.toInt)).bind fun _ =>
    (faultsLegally_chkPc s 4).bind fun _ => .ok _

theorem faultsLegally_jumpEffect (taken : Bool) {ma mb : Mode} (s : State.Of W) (h : (ma.wf && mb.wf) = true) :
    FaultsLegally (jumpEffect taken ma mb s) := by
  obtain ⟨ha, hb⟩ := Bool.and_eq_true_iff.1 h
  exact (faultsLegally_rd s 1 ha).bind fun a => (faultsLegally_rd s 2 hb).bind fun b =>
    (faultsLegally_jumpTarget taken a b s).bind fun _ => .ok _

/-- A well-formed instruction takes legal faults only. -/
theorem faultsLegally_instrEffect {i : Instr} (s : State.Of W) (h : i.wf = true) :
    FaultsLegally (instrEffect i s) := by
  have hadvance : ∀ f : Addr W → Effect W, FaultsLegally (chkPc s 2 >>= fun n => .ok (f n)) := fun _ =>
    (faultsLegally_chkPc s 2).bind fun _ => .ok _
  cases i with
  | add | mul | lt | eq => exact faultsLegally_aluEffect _ s h
  | jt | jf => exact faultsLegally_jumpEffect _ s h
  | inp => exact (faultsLegally_wr s 1 h).bind fun _ => (faultsLegally_nextInput s).bind fun _ => hadvance _
  | out => exact (faultsLegally_rd s 1 h).bind fun _ => hadvance _
  | arb => exact (faultsLegally_rd s 1 h).bind fun a => (faultsLegally_chk _).bind fun _ => hadvance _
  | halt => exact .ok _

end

/-- The opcode of a refused word is none of the map (R83, R91). -/
theorem illegalOpcode_of_decodeValue_eq_error {v op : Int} (h : decodeValue v = .error (.unknownOpcode op)) :
    illegalOpcode op = true := by
  simp only [illegalOpcode, decide_eq_true_eq]
  rcases decodeValue_eq_error h with ⟨hneg, rfl⟩ | ⟨hnonneg, rfl, hlow, hhalt⟩ <;> omega

/-- A step takes legal faults only (R29). -/
theorem payloadOk_of_stepEffect_eq_error {s : State.Of W} {c : Cause.Of W} (h : stepEffect s = .error c) :
    payloadOk s.pc c = true := by
  cases hdecode : decodeValue (fetch s).toInt with
  | error e =>
    obtain ⟨op⟩ := e
    rw [stepEffect_of_refused hdecode] at h
    obtain rfl := Except.error.inj h
    simp [causeOfDecodeError, payloadOk, illegalOpcode_of_decodeValue_eq_error hdecode]
  | ok i =>
    rw [stepEffect_of_decode hdecode] at h
    exact faultsLegally_instrEffect s (decodeValue_wf hdecode) c h s.pc

/-! ### The updates -/

section

variable {s : State.Of W} (hinv : s.Inv) (hrun : s.status = .running)
include hinv hrun

theorem fault_eq_none_of_running : s.fault = none := fault_eq_none_of_inv hinv (by rw [hrun]; decide)

theorem retval_eq_zero_of_running : s.retval = 0 := hinv.retvalZero (by rw [hrun]; decide)

/-- While the core runs the invariant is about memory, `extent` and the cursor; `pc`, `rb` and `out` are free. -/
theorem inv_of_running {t : State.Of W} (hmem : Memory.wf t.mem = true)
    (hbelow : ∀ a, t.extent ≤ a → Memory.read t.mem a = 0) (hextent : t.extent ≤ Config.AMAX W + 1)
    (hcursor : t.inCursor ≤ t.input.length) (hstatus : t.status = s.status) (hfault : t.fault = s.fault)
    (hretval : t.retval = s.retval) : t.Inv where
  memWf := hmem
  memBelowExtent := hbelow
  extentRange := hextent
  cursorRange := hcursor
  faultIffFaulted := by rw [hfault, hstatus]; exact hinv.faultIffFaulted
  faultPayload c hc := by
    rw [hfault, fault_eq_none_of_running hinv hrun] at hc
    cases hc
  retvalHalted h := by
    rw [hstatus, hrun] at h
    cases h
  retvalZero _ := hretval.trans (retval_eq_zero_of_running hinv hrun)

theorem inv_raise {c : Cause.Of W} (hc : payloadOk s.pc c = true) : (s.raise c).Inv :=
  have hzero := retval_eq_zero_of_running hinv hrun
  { hinv with
    faultIffFaulted := ⟨fun _ => rfl, fun _ => rfl⟩
    faultPayload := fun _ h => Option.some.inj h ▸ hc
    retvalHalted := nofun
    retvalZero := fun _ => hzero }

theorem inv_halt : s.halt.Inv :=
  have hnone := fault_eq_none_of_running hinv hrun
  { hinv with
    faultIffFaulted := by
      rw [State.Of.halt_fault, hnone]
      exact ⟨nofun, nofun⟩
    retvalHalted := fun _ => rfl
    retvalZero := fun h => absurd rfl h }

/-- A write keeps the canonical form and the zero words beyond `extent` (R37, R54). -/
theorem inv_memWrite (d : Addr W) (v : Word W) : (s.memWrite d v).Inv :=
  inv_of_running hinv hrun (State.Of.memWrite_wf d v hinv.memWf)
    (fun a ha => by
      have hold : s.extent ≤ a := (State.Of.extent_le_memWrite s d v).trans ha
      have hne : a ≠ d.val := Nat.ne_of_gt ((State.Of.lt_extent_memWrite s d v).trans_le ha)
      rw [State.Of.memWrite_mem, Memory.read_write_ne _ v hne, hinv.memBelowExtent a hold])
    (by
      rw [State.Of.memWrite_extent]
      split
      · exact d.isLt
      · exact hinv.extentRange)
    hinv.cursorRange rfl rfl rfl

end

/-! ### The step -/

/-- What the step answers has the invariant: its fault is legal, and its effect is one of the updates above. -/
theorem inv_outcomeOf_stepEffect {s : State.Of W} (hinv : s.Inv) (hrun : s.status = .running) :
    (outcomeOf s (stepEffect s)).Inv := by
  cases he : stepEffect s with
  | error c => exact inv_raise hinv hrun (payloadOk_of_stepEffect_eq_error he)
  | ok e =>
    obtain ⟨i, -, hfrom⟩ := stepEffect_eq_ok he
    cases e with
    | halt v =>
      obtain ⟨-, rfl⟩ := hfrom
      exact inv_halt hinv hrun
    | jump | output | rebase =>
      exact inv_of_running hinv hrun hinv.memWf hinv.memBelowExtent hinv.extentRange hinv.cursorRange rfl rfl rfl
    | store d v =>
      obtain ⟨hmem, hbelow, hextent, -⟩ := inv_memWrite hinv hrun d v
      exact inv_of_running hinv hrun hmem hbelow hextent hinv.cursorRange rfl rfl rfl
    | input d v =>
      obtain ⟨-, -, -, hinput⟩ := hfrom
      obtain ⟨hmem, hbelow, hextent, -⟩ := inv_memWrite hinv hrun d v
      exact inv_of_running hinv hrun hmem hbelow hextent (inCursor_lt_of_nextInput hinput) rfl rfl rfl

theorem inv_of_stepAt {s t : State.Of W} (hinv : s.Inv) (h : stepAt s = .next t) : t.Inv := by
  obtain ⟨hrun, rfl⟩ := stepAt_eq_next_iff.1 h
  exact inv_outcomeOf_stepEffect hinv hrun

/-- Settles O37: the step of this hardware is that of width 64. -/
theorem everyStepKeepsTheInvariant : Obligations.EveryStepKeepsTheInvariant := by
  intro s t hinv h
  rw [step_eq_stepAt] at h
  exact inv_of_stepAt hinv h

/-- Settles O46: launch and step have been treated at every width. -/
theorem everyWidthKeepsTheInvariant : Obligations.EveryWidthKeepsTheInvariant := fun _ _ =>
  ⟨fun _ _ _ => inv_of_launchAt_eq_next, fun _ _ => inv_of_stepAt⟩

end Sys2Proof.Claims

/-! SUPPORT. Runs, and what a step changes: what only grows along a run (R30, R31, R55), which instruction writes each
state element (R20), and which circumstances raise each fault (R180). -/

namespace Sys2Proof.Claims

open Sys2Proof.Machine

/-! ### Runs -/

section

variable {W : Nat} {s t : State.Of W}

/-- What every step keeps holds along a run. -/
theorem runAt_induction {P : State.Of W → Prop} (hstep : ∀ s t, P s → stepAt s = .next t → P t) (n : Nat) (hs : P s) :
    P (runAt n s) := by
  induction n generalizing s with
  | zero => exact hs
  | succ n ih =>
    by_cases hnext : ∃ t, stepAt s = .next t
    · obtain ⟨t, ht⟩ := hnext
      rw [runAt, runWith_of_next ht]
      exact ih (hstep s t hs ht)
    · rwa [runAt, runWith_of_no_next (not_exists.1 hnext)]

/-- A core that is not running stays as it is (R123). -/
theorem runAt_of_not_running (h : s.status ≠ .running) (n : Nat) : runAt n s = s :=
  runWith_of_no_next (fun _ ht => h (stepAt_eq_next_iff.1 ht).1) n

theorem runAt_add (n k : Nat) (s : State.Of W) : runAt (n + k) s = runAt k (runAt n s) := by
  induction n generalizing s with
  | zero => rw [Nat.zero_add, runAt, runAt, runAt, runWith_zero]
  | succ n ih =>
    by_cases hnext : ∃ t, stepAt s = .next t
    · obtain ⟨t, ht⟩ := hnext
      have hrun : ∀ j, runAt (j + 1) s = runAt j t := fun _ => runWith_of_next ht
      rw [Nat.succ_add, hrun, hrun, ih]
    · have hstay : ∀ j, runAt j s = s := runWith_of_no_next (not_exists.1 hnext)
      rw [hstay, hstay, hstay]

/-- The elements that a run only lets grow: `extent`, `in_cursor` and `out`, with the input fixed (R30, R31, R55). -/
structure Grows (s t : State.Of W) : Prop where
  extent : s.extent ≤ t.extent
  inCursor : s.inCursor ≤ t.inCursor
  input : t.input = s.input
  out : s.out <+: t.out

theorem Grows.refl (s : State.Of W) : Grows s s := ⟨le_rfl, le_rfl, rfl, List.prefix_rfl⟩

theorem Grows.trans {u : State.Of W} (h : Grows s t) (h' : Grows t u) : Grows s u :=
  ⟨h.extent.trans h'.extent, h.inCursor.trans h'.inCursor, h'.input.trans h.input, h.out.trans h'.out⟩

theorem grows_outcomeOf (s : State.Of W) (x : Except (Cause.Of W) (Effect W)) : Grows s (outcomeOf s x) := by
  cases x with
  | error c => exact ⟨le_rfl, le_rfl, rfl, List.prefix_rfl⟩
  | ok e =>
    cases e with
    | halt | jump | rebase => exact ⟨le_rfl, le_rfl, rfl, List.prefix_rfl⟩
    | output v n => exact ⟨le_rfl, le_rfl, rfl, List.prefix_append s.out [v]⟩
    | store d v n => exact ⟨State.Of.extent_le_memWrite s d v, le_rfl, rfl, List.prefix_rfl⟩
    | input d v n => exact ⟨State.Of.extent_le_memWrite s d v, Nat.le_succ _, rfl, List.prefix_rfl⟩

theorem grows_runAt (n : Nat) (s : State.Of W) : Grows s (runAt n s) :=
  runAt_induction (P := Grows s) (n := n)
    (fun t u hst htu => by
      obtain ⟨-, rfl⟩ := stepAt_eq_next_iff.1 htu
      exact hst.trans (grows_outcomeOf t _))
    (Grows.refl s)

theorem inv_runAt (hinv : s.Inv) (n : Nat) : (runAt n s).Inv := runAt_induction (fun _ _ => inv_of_stepAt) n hinv

end

/-- Settles O38: every step lets these elements grow, so that every run does; a terminal state takes no step. -/
theorem runsAreMonotone : Obligations.RunsAreMonotone := by
  intro n s
  rw [runFor_eq_runAt]
  obtain ⟨hextent, hcursor, hinput, hout⟩ := grows_runAt n s
  exact ⟨hextent, hcursor, hinput, hout, fun h => runAt_of_not_running h n⟩

/-- Settles O39: the invariant of the launch is kept along the run, and the longer run continues the shorter one. -/
theorem everyReachableStateIsInvariant : Obligations.EveryReachableStateIsInvariant := by
  intro image input s n k hlaunch
  rw [runFor_eq_runAt, runFor_eq_runAt, runAt_add]
  have hinv : (runAt n s).Inv := inv_runAt (inv_of_launchAt_eq_next hlaunch) n
  obtain ⟨hextent, hcursor, -, hout⟩ := grows_runAt k (runAt n s)
  exact ⟨hinv, Nat.le_of_lt_succ (runAt n s).pc.isLt, Word.inIntW _, fun _ => Word.inIntW _, hextent, hcursor, hout,
    fun h => runAt_of_not_running h k, cause_ne_zero_iff_of_inv hinv⟩

/-! ### Writers -/

section

variable {s t : State}

/-- The step of this hardware in terms of its effect. -/
theorem step_eq_next_iff : step s = .next t ↔ s.status = .running ∧ t = outcomeOf s (stepEffect s) := by
  rw [step_eq_stepAt]
  exact stepAt_eq_next_iff

theorem stepEffect_of_runs {i : Instr} (h : Runs s i) : stepEffect s = instrEffect i s := stepEffect_of_decode h.2

/-- A step ends halted exactly when it runs HALT (R28, R157). -/
theorem outcomeOf_status_eq_halted_iff (hrun : s.status = .running) :
    (outcomeOf s (stepEffect s)).status = .halted ↔ Runs s .halt := by
  constructor
  · intro h
    cases he : stepEffect s with
    | error c =>
      rw [he] at h
      cases h
    | ok e =>
      rw [he] at h
      obtain ⟨i, hi, hfrom⟩ := stepEffect_eq_ok he
      cases e with
      | halt v => exact ⟨hrun, hfrom.1 ▸ hi⟩
      | jump | output | rebase | store | input => cases hrun.symm.trans h
  · intro h
    rw [stepEffect_of_runs h]
    rfl

end

/-- Settles O34: a fault writes the status and the record alone, and each effect writes what its own instructions
write. -/
theorem eachElementHasItsWriters : Obligations.EachElementHasItsWriters := by
  intro s t h
  obtain ⟨hrun, rfl⟩ := step_eq_next_iff.1 h
  have hhalted := outcomeOf_status_eq_halted_iff hrun
  cases he : stepEffect s with
  | error c =>
    rw [he] at hhalted
    exact ⟨rfl, absurd rfl, absurd rfl, absurd rfl, absurd rfl, hhalted, fun _ => rfl, .inl rfl,
      absurd ⟨fun _ => rfl, rfl⟩⟩
  | ok e =>
    rw [he] at hhalted
    obtain ⟨i, hi, hfrom⟩ := stepEffect_eq_ok he
    have hruns : Runs s i := ⟨hrun, hi⟩
    cases e with
    | halt v =>
      obtain ⟨rfl, -⟩ := hfrom
      exact ⟨rfl, absurd rfl, absurd rfl, absurd rfl, fun _ => hruns, hhalted, absurd rfl, .inl rfl,
        absurd ⟨fun _ => rfl, rfl⟩⟩
    | jump n =>
      exact ⟨rfl, absurd rfl, absurd rfl, absurd rfl, absurd rfl, hhalted, absurd rfl, .inr hrun,
        absurd ⟨fun _ => rfl, rfl⟩⟩
    | output v n =>
      obtain ⟨m, rfl⟩ := hfrom
      exact ⟨rfl, absurd rfl, fun _ => ⟨m, hruns⟩, absurd rfl, absurd rfl, hhalted, absurd rfl,
        .inr hrun, absurd ⟨fun _ => rfl, rfl⟩⟩
    | rebase v n =>
      obtain ⟨m, rfl⟩ := hfrom
      exact ⟨rfl, fun _ => ⟨m, hruns⟩, absurd rfl, absurd rfl, absurd rfl, hhalted, absurd rfl,
        .inr hrun, absurd ⟨fun _ => rfl, rfl⟩⟩
    | store d v n =>
      obtain ⟨m, hm, hd⟩ := hfrom
      exact ⟨rfl, absurd rfl, absurd rfl, absurd rfl, absurd rfl, hhalted, absurd rfl, .inr hrun,
        fun _ => ⟨m, i, hruns, hm, d.val, targets_of_wr_eq_ok hd, fun _ => wordAt_memWrite_ne s d v,
          extent_memWrite_eq_max s d v⟩⟩
    | input d v n =>
      obtain ⟨m, rfl, hd, -⟩ := hfrom
      exact ⟨rfl, absurd rfl, absurd rfl, fun _ => ⟨m, hruns⟩, absurd rfl, hhalted, absurd rfl,
        .inr hrun, fun _ => ⟨m, .inp m, hruns, .inp, d.val, targets_of_wr_eq_ok hd, fun _ => wordAt_memWrite_ne s d v,
          extent_memWrite_eq_max s d v⟩⟩

/-! ### Faults -/

/-- What makes an instruction fault, with the cause that it then takes (R180 to R186): a mode that its parameter does
not allow, an address that is not one, no input left, a taken jump below 0, or a result or the advance out of range. -/
inductive FaultsWith (s : State) (i : Instr) : Cause → Prop
  | unknownMode (d : Nat) (used : Mode.unknown d ∈ usedModes i) : FaultsWith s i (.unknownParameterMode d)
  | immediateTarget (has : HasTarget .immediate i) : FaultsWith s i .unsupportedWriteMode
  | address {k : Nat} {m : Mode} {c : Cause} (uses : UsesParam i k m) (faults : AddressFaults s k m c) :
    FaultsWith s i c
  | noInput {m : Mode} (inp : i = .inp m) (none : s.input.length ≤ s.inCursor) : FaultsWith s i .inputExhausted
  | jump (below : JumpsBelowZero s i) : FaultsWith s i .negativeAddress
  | result (outside : ResultOutside s i) : FaultsWith s i .overflow
  | advance (notHalt : i ≠ .halt) (beyond : Config.AMAX < s.pc.val + i.length) : FaultsWith s i .overflow

section

variable {s : State} {i : Instr} {c : Cause} {k : Nat} {m : Mode}

/-! #### The parameters -/

theorem length_eq_usedModes (i : Instr) : i.length = 1 + (usedModes i).length := by cases i <;> rfl

theorem UsesParam.mem (h : UsesParam i k m) : m ∈ usedModes i := List.mem_of_getElem? h.2

/-- A parameter lies within the instruction (R80). -/
theorem UsesParam.lt_length (h : UsesParam i k m) : k < i.length := by
  obtain ⟨hpos, hmode⟩ := h
  have hlt := (List.getElem?_eq_some_iff.1 hmode).1
  rw [length_eq_usedModes]
  omega

theorem UsesParam.ne_halt (h : UsesParam i k m) : i ≠ .halt := by
  rintro rfl
  cases h.mem

theorem usedModes_wf (h : i.wf = true) (hm : m ∈ usedModes i) : m.wf = true := by
  cases i with
  | add a b d | mul a b d | lt a b d | eq a b d =>
    simp only [Instr.wf, Bool.and_eq_true] at h
    simp only [usedModes, List.mem_cons, List.not_mem_nil, or_false] at hm
    obtain ⟨⟨ha, hb⟩, hd⟩ := h
    rcases hm with rfl | rfl | rfl <;> assumption
  | jt a b | jf a b =>
    simp only [Instr.wf, Bool.and_eq_true] at h
    simp only [usedModes, List.mem_cons, List.not_mem_nil, or_false] at hm
    obtain ⟨ha, hb⟩ := h
    rcases hm with rfl | rfl <;> assumption
  | inp | out | arb => exact List.mem_singleton.1 hm ▸ h
  | halt => cases hm

/-- An Immediate parameter beyond the address space puts the next instruction beyond it as well. -/
theorem FaultsWith.read (uses : UsesParam i k m) (h : ReadFaults s k m c) : FaultsWith s i c := by
  cases h with
  | unknownMode d => exact .unknownMode d uses.mem
  | immediateBeyond hbeyond => exact .advance uses.ne_halt (hbeyond.trans (Nat.add_lt_add_left uses.lt_length _))
  | address hfaults => exact .address uses hfaults

theorem FaultsWith.target (has : HasTarget m i) (uses : UsesParam i k m) (h : TargetFaults s k m c) :
    FaultsWith s i c := by
  cases h with
  | unknownMode d => exact .unknownMode d uses.mem
  | immediate => exact .immediateTarget has
  | address hfaults => exact .address uses hfaults

theorem AddressFaults.cause (h : AddressFaults s k m c) : c = .overflow ∨ c = .negativeAddress := by
  cases h with
  | positionBeyond | relativeBeyond | sumOutside => exact .inl rfl
  | positionNegative | relativeNegative => exact .inr rfl

/-! #### The instructions -/

/-- The checked advance by the length faults with `Overflow` alone (R121). -/
theorem faultsWith_of_chkPc_eq_error (hi : i ≠ .halt) (h : chkPc s i.length = .error c) : FaultsWith s i c := by
  obtain ⟨hbeyond, rfl⟩ := chkPc_eq_error.1 h
  exact .advance hi hbeyond

/-- The comparisons have no result outside `Int_W` (R134, R135). -/
theorem AluFamily.resultOutside {mk : Mode → Mode → Mode → Instr} {op : Nat} {aop : AluOp} (h : AluFamily mk op aop)
    {ma mb md : Mode} {a b : Int} {d : Nat} (hparams : ThreeParams s ma mb md a b d) (hout : ¬InIntW (alu aop a b)) :
    ResultOutside s (mk ma mb md) := by
  cases h with
  | add => exact .add hparams hout
  | mul => exact .mul hparams hout
  | lt =>
    rw [alu_lessThan] at hout
    exact absurd (inIntW_ite _) hout
  | eq =>
    rw [alu_equals] at hout
    exact absurd (inIntW_ite _) hout

theorem AluFamily.faultsWith {mk : Mode → Mode → Mode → Instr} {op : Nat} {aop : AluOp} (hmk : AluFamily mk op aop)
    {ma mb md : Mode} (h : aluEffect aop ma mb md s = .error c) : FaultsWith s (mk ma mb md) c := by
  have hmodes : usedModes (mk ma mb md) = [ma, mb, md] := by cases hmk <;> rfl
  have hadvance := faultsWith_of_chkPc_eq_error (s := s) (i := mk ma mb md) (c := c) (by cases hmk <;> nofun)
  rw [hmk.length_eq] at hadvance
  simp only [aluEffect, bind_eq_error] at h
  rcases h with h | ⟨a, ha, h | ⟨b, hb, h | ⟨d, hd, h | ⟨r, -, h | ⟨n, -, h⟩⟩⟩⟩⟩
  · exact .read (k := 1) ⟨le_rfl, by rw [hmodes]; rfl⟩ (rd_eq_error_iff_readFaults.1 h)
  · exact .read (k := 2) ⟨by decide, by rw [hmodes]; rfl⟩ (rd_eq_error_iff_readFaults.1 h)
  · exact .target (k := 3) (by cases hmk <;> constructor) ⟨by decide, by rw [hmodes]; rfl⟩
      (wr_eq_error_iff_targetFaults.1 h)
  · obtain ⟨hout, rfl⟩ := chk_eq_error.1 h
    exact .result (hmk.resultOutside
      ⟨rd_eq_ok_iff_readsAs.1 ha, rd_eq_ok_iff_readsAs.1 hb, targets_of_wr_eq_ok hd⟩ hout)
  · exact hadvance h
  · cases h

theorem jumpEffect_faultsWith {taken : Bool} {ma mb : Mode} (hmodes : usedModes i = [ma, mb]) (hlength : i.length = 3)
    (hbelow : ∀ a b : Word, ReadsAs s 1 ma a.toInt → ReadsAs s 2 mb b.toInt → wordIsTrue a = taken → b.toInt < 0 →
      JumpsBelowZero s i) (h : jumpEffect taken ma mb s = .error c) : FaultsWith s i c := by
  have hhalt : i ≠ .halt := by
    rintro rfl
    cases hlength
  have hadvance := faultsWith_of_chkPc_eq_error (s := s) (c := c) hhalt
  rw [hlength] at hadvance
  simp only [jumpEffect, bind_eq_error] at h
  rcases h with h | ⟨a, ha, h | ⟨b, hb, h | ⟨n, -, h⟩⟩⟩
  · exact .read (k := 1) ⟨le_rfl, by rw [hmodes]; rfl⟩ (rd_eq_error_iff_readFaults.1 h)
  · exact .read (k := 2) ⟨by decide, by rw [hmodes]; rfl⟩ (rd_eq_error_iff_readFaults.1 h)
  · unfold jumpTarget at h
    split at h
    · next htaken =>
      obtain ⟨hneg, rfl⟩ := addrOf_eq_error.1 h
      exact .jump (hbelow a b (rd_eq_ok_iff_readsAs.1 ha) (rd_eq_ok_iff_readsAs.1 hb) htaken hneg)
    · exact hadvance h
  · cases h

theorem inEffect_faultsWith {m : Mode} (h : inEffect m s = .error c) : FaultsWith s (.inp m) c := by
  simp only [inEffect, bind_eq_error] at h
  rcases h with h | ⟨d, -, h | ⟨v, -, h | ⟨n, -, h⟩⟩⟩
  · exact .target (k := 1) .inp ⟨le_rfl, rfl⟩ (wr_eq_error_iff_targetFaults.1 h)
  · obtain ⟨hnone, rfl⟩ := nextInput_eq_error.1 h
    exact .noInput rfl hnone
  · exact faultsWith_of_chkPc_eq_error nofun h
  · cases h

theorem outEffect_faultsWith {m : Mode} (h : outEffect m s = .error c) : FaultsWith s (.out m) c := by
  simp only [outEffect, bind_eq_error] at h
  rcases h with h | ⟨a, -, h | ⟨n, -, h⟩⟩
  · exact .read (k := 1) ⟨le_rfl, rfl⟩ (rd_eq_error_iff_readFaults.1 h)
  · exact faultsWith_of_chkPc_eq_error nofun h
  · cases h

theorem arbEffect_faultsWith {m : Mode} (h : arbEffect m s = .error c) : FaultsWith s (.arb m) c := by
  simp only [arbEffect, bind_eq_error] at h
  rcases h with h | ⟨a, ha, h | ⟨v, -, h | ⟨n, -, h⟩⟩⟩
  · exact .read (k := 1) ⟨le_rfl, rfl⟩ (rd_eq_error_iff_readFaults.1 h)
  · obtain ⟨hout, rfl⟩ := chk_eq_error.1 h
    exact .result (.arb (rd_eq_ok_iff_readsAs.1 ha) hout)
  · exact faultsWith_of_chkPc_eq_error nofun h
  · cases h

/-- Every fault of an instruction has one of these reasons. -/
theorem instrEffect_faultsWith (h : instrEffect i s = .error c) : FaultsWith s i c := by
  cases i with
  | add => exact AluFamily.add.faultsWith h
  | mul => exact AluFamily.mul.faultsWith h
  | lt => exact AluFamily.lt.faultsWith h
  | eq => exact AluFamily.eq.faultsWith h
  | inp => exact inEffect_faultsWith h
  | out => exact outEffect_faultsWith h
  | arb => exact arbEffect_faultsWith h
  | jt =>
    exact jumpEffect_faultsWith rfl rfl (fun _ _ ha hb htrue => .jt ha hb (wordIsTrue_eq_true.1 htrue)) h
  | jf =>
    exact jumpEffect_faultsWith rfl rfl (fun _ _ ha hb hfalse => .jf ha hb (wordIsTrue_eq_false.1 hfalse)) h
  | halt => cases h

theorem ResultOutside.ne_halt (h : ResultOutside s i) : i ≠ .halt := by
  rintro rfl
  cases h

/-- The step that ends in a fault is a word that is no instruction, or an instruction with a reason to fault. -/
theorem step_eq_faultedWith_cases (h : step s = .next (faultedWith s c)) :
    (∃ op, decode (s.memRead s.pc) = .error (.unknownOpcode op) ∧ c = .unknownOpcode op s.pc) ∨
      ∃ i, Runs s i ∧ i.wf = true ∧ FaultsWith s i c := by
  obtain ⟨hrun, houtcome⟩ := step_eq_next_iff.1 h
  have hstatus : (outcomeOf s (stepEffect s)).status = .faulted := congrArg State.Of.status houtcome.symm
  obtain ⟨c', hc'⟩ := (outcomeOf_status_eq_faulted_iff hrun).1 hstatus
  rw [hc'] at houtcome
  obtain rfl : c = c' := Option.some.inj (congrArg State.Of.fault houtcome)
  cases hdecode : decodeValue (fetch s).toInt with
  | error e =>
    obtain ⟨op⟩ := e
    rw [stepEffect_of_refused hdecode] at hc'
    exact .inl ⟨op, hdecode, (Except.error.inj hc').symm⟩
  | ok i =>
    rw [stepEffect_of_decode hdecode] at hc'
    exact .inr ⟨i, ⟨hrun, hdecode⟩, decodeValue_wf hdecode, instrEffect_faultsWith hc'⟩

end

/-- Settles O32: a refused word is the dispatch's fault; an instruction's reasons to fault are sorted by their cause. -/
theorem everyFaultHasItsCondition : Obligations.EveryFaultHasItsCondition := by
  intro s c h
  rcases step_eq_faultedWith_cases h with ⟨op, hdecode, rfl⟩ | ⟨i, hruns, hwf, hfaults⟩
  · exact ⟨rfl, hdecode⟩
  cases hfaults with
  | unknownMode d used =>
    obtain ⟨hlow, hhigh⟩ : 3 ≤ d ∧ d ≤ 9 := of_decide_eq_true (usedModes_wf hwf used)
    exact ⟨hlow, hhigh, i, hruns, used⟩
  | immediateTarget has => exact ⟨i, hruns, has⟩
  | address uses faults =>
    rcases faults.cause with rfl | rfl
    · exact ⟨i, hruns, uses.ne_halt, .inl ⟨_, _, uses, faults⟩⟩
    · exact ⟨i, hruns, .inl ⟨_, _, uses, faults⟩⟩
  | noInput inp none => exact ⟨_, inp ▸ hruns, none⟩
  | jump below => exact ⟨i, hruns, .inr below⟩
  | result outside => exact ⟨i, hruns, outside.ne_halt, .inr (.inl outside)⟩
  | advance notHalt beyond => exact ⟨i, hruns, notHalt, .inr (.inr beyond)⟩

end Sys2Proof.Claims

/-! SUPPORT. What a step depends on: not on `extent` or `out` (R31, R32), and on memory only through the words that its
accesses read, which come before the one it writes (R66, R71). -/

namespace Sys2Proof.Claims

open Sys2Proof.Machine

/-! ### Elements that no instruction reads -/

theorem step_of_running {s : State} (hrun : s.status = .running) : step s = .next (outcomeOf s (stepEffect s)) :=
  step_eq_next_iff.2 ⟨hrun, rfl⟩

/-- A running core with the effect of another state applies that effect to its own state. -/
theorem step_of_same_effect {s s' : State} (hrun : s'.status = .running) (h : stepEffect s' = stepEffect s) :
    step s' = .next (outcomeOf s' (stepEffect s)) := h ▸ step_of_running hrun

section

variable {W : Nat} (s : State.Of W) (x : Except (Cause.Of W) (Effect W))

theorem outcomeOf_with_extent (e : Nat) :
    ∃ e', outcomeOf { s with extent := e } x = { outcomeOf s x with extent := e' } := by
  cases x with
  | error c => exact ⟨_, rfl⟩
  | ok f => cases f <;> exact ⟨_, rfl⟩

/-- The values that an effect appends to the output (R31, R146). -/
def outputsOf : Except (Cause.Of W) (Effect W) → List (Word W)
  | .ok (.output v _) => [v]
  | _ => []

theorem outputsOf_length_le : (outputsOf x).length ≤ 1 := by
  cases x with
  | error c => exact Nat.zero_le 1
  | ok e => cases e <;> simp [outputsOf]

theorem outcomeOf_out : (outcomeOf s x).out = s.out ++ outputsOf x := by
  cases x with
  | error c => exact (List.append_nil s.out).symm
  | ok e =>
    cases e with
    | output => rfl
    | halt | jump | rebase | store | input => exact (List.append_nil s.out).symm

theorem outcomeOf_with_out (o : List (Word W)) :
    outcomeOf { s with out := o } x = { outcomeOf s x with out := o ++ outputsOf x } := by
  have houtput : (outcomeOf { s with out := o } x).out = o ++ outputsOf x := outcomeOf_out _ x
  rw [← houtput]
  cases x with
  | error c => rfl
  | ok e => cases e <;> rfl

end

/-- Settles O40: the effect is read without `extent`, and changes nothing else where `extent` is another. -/
theorem extentIsNotReadByAnyInstruction : Obligations.ExtentIsNotReadByAnyInstruction := by
  intro s e hrun
  have heffect : stepEffect { s with extent := e } = stepEffect s := stepEffect_congr rfl rfl rfl rfl rfl
  obtain ⟨e', he'⟩ := outcomeOf_with_extent s (stepEffect s) e
  exact ⟨_, e', step_of_running hrun, he' ▸ step_of_same_effect hrun heffect⟩

/-- Settles O41: the effect is read without `out`, and appends its value to whatever `out` is. -/
theorem outputIsNotReadByAnyInstruction : Obligations.OutputIsNotReadByAnyInstruction := by
  intro s o hrun
  have heffect : stepEffect { s with out := o } = stepEffect s := stepEffect_congr rfl rfl rfl rfl rfl
  exact ⟨_, outputsOf (stepEffect s), step_of_running hrun, outcomeOf_out s _, outputsOf_length_le _,
    outcomeOf_with_out s _ o ▸ step_of_same_effect hrun heffect⟩

/-! ### The words that an effect is read from -/

section

variable {W : Nat} {s : State.Of W} {m : Memory W}

/-- The memory holds the same words as the state's wherever the accesses read (R66). -/
def AgreesOn (s : State.Of W) (m : Memory W) (l : List (Access.Of W)) : Prop :=
  ∀ a : Addr W, Access.Of.read a ∈ l → Memory.read m a.val = Memory.read s.mem a.val

theorem AgreesOn.of_append {l l' : List (Access.Of W)} (h : AgreesOn s m (l ++ l')) :
    AgreesOn s m l ∧ AgreesOn s m l' :=
  ⟨fun a ha => h a (List.mem_append_left l' ha), fun a ha => h a (List.mem_append_right l ha)⟩

theorem AgreesOn.memRead {a : Addr W} (h : AgreesOn s m [.read a]) :
    State.Of.memRead { s with mem := m } a = s.memRead a := h a (List.mem_singleton.2 rfl)

/-- Two runs of stages agree when their first stages do, and the others on its result. -/
theorem bind_congr_ok {α β : Type} {x y : Except (Cause.Of W) α} {f g : α → Except (Cause.Of W) β} (hxy : x = y)
    (h : ∀ a, y = .ok a → f a = g a) : x >>= f = y >>= g := by
  subst hxy
  cases x with
  | error c => rfl
  | ok a => exact h a rfl

theorem raw_with_mem {k : Nat} (h : AgreesOn s m (rawAccess s k)) : raw { s with mem := m } k = raw s k :=
  bind_congr_ok rfl fun p hp => by
    rw [rawAccess, hp, afterOk_ok] at h
    rw [h.memRead]

theorem paramAddr_with_mem {k : Nat} (am : AddrMode) (h : AgreesOn s m (rawAccess s k)) :
    paramAddr { s with mem := m } k am = paramAddr s k am :=
  bind_congr_ok (raw_with_mem h) fun _ _ => by cases am <;> rfl

theorem readVia_with_mem {k : Nat} {am : AddrMode}
    (h : AgreesOn s m (rawAccess s k ++ afterOk (paramAddr s k am) fun a => [.read a])) :
    readVia { s with mem := m } k am = readVia s k am := by
  obtain ⟨hraw, hoperand⟩ := h.of_append
  refine bind_congr_ok (paramAddr_with_mem am hraw) fun a ha => ?_
  rw [ha, afterOk_ok] at hoperand
  rw [hoperand.memRead]

theorem rd_with_mem {k : Nat} {pm : Mode} (h : AgreesOn s m (rdAccesses s k pm)) :
    rd { s with mem := m } k pm = rd s k pm :=
  match pm with
  | .unknown _ => rfl
  | .immediate => raw_with_mem h
  | .position => readVia_with_mem h
  | .relative => readVia_with_mem h

theorem wr_with_mem {k : Nat} {pm : Mode} (h : AgreesOn s m (wrAccesses s k pm)) :
    wr { s with mem := m } k pm = wr s k pm :=
  match pm with
  | .unknown _ => rfl
  | .immediate => rfl
  | .position => paramAddr_with_mem .position h
  | .relative => paramAddr_with_mem .relative h

/-- Two runs of stages agree when their first stages do where the accesses of that stage agree. -/
theorem AgreesOn.bind_congr {α β : Type} {l : List (Access.Of W)} {rest : α → List (Access.Of W)}
    {x y : Except (Cause.Of W) α} {f g : α → Except (Cause.Of W) β} (h : AgreesOn s m (l ++ afterOk y rest))
    (hxy : AgreesOn s m l → x = y) (hfg : ∀ a, AgreesOn s m (rest a) → f a = g a) : x >>= f = y >>= g := by
  obtain ⟨hl, hrest⟩ := h.of_append
  refine bind_congr_ok (hxy hl) fun a ha => hfg a ?_
  rwa [ha, afterOk_ok] at hrest

theorem aluEffect_with_mem {op : AluOp} {ma mb md : Mode} (h : AgreesOn s m (aluAccesses op ma mb md s)) :
    aluEffect op ma mb md { s with mem := m } = aluEffect op ma mb md s :=
  h.bind_congr rd_with_mem fun _ h => h.bind_congr rd_with_mem fun _ h => h.bind_congr wr_with_mem fun _ _ => rfl

theorem inEffect_with_mem {md : Mode} (h : AgreesOn s m (inAccesses md s)) :
    inEffect md { s with mem := m } = inEffect md s :=
  h.bind_congr wr_with_mem fun _ _ => rfl

theorem jumpEffect_with_mem {taken : Bool} {ma mb : Mode} (h : AgreesOn s m (jumpAccesses ma mb s)) :
    jumpEffect taken ma mb { s with mem := m } = jumpEffect taken ma mb s :=
  h.bind_congr rd_with_mem fun _ h => bind_congr_ok (rd_with_mem h) fun _ _ => rfl

theorem instrEffect_with_mem {i : Instr} (h : AgreesOn s m (instrAccesses i s)) :
    instrEffect i { s with mem := m } = instrEffect i s := by
  cases i with
  | add | mul | lt | eq => exact aluEffect_with_mem h
  | inp => exact inEffect_with_mem h
  | jt | jf => exact jumpEffect_with_mem h
  | out | arb => exact bind_congr_ok (rd_with_mem h) fun _ _ => rfl
  | halt => exact congrArg (fun v => Except.ok (Effect.halt v)) h.memRead

/-- The accesses of a running core's step: the instruction word, then those of its instruction (R66). -/
theorem stepAccesses_of_decode {i : Instr} (hrun : s.status = .running) (h : decodeValue (fetch s).toInt = .ok i) :
    stepAccesses s = .read s.pc :: instrAccesses i s := by
  simp only [stepAccesses, hrun, h]

theorem stepAccesses_of_refused {e : DecodeError} (hrun : s.status = .running)
    (h : decodeValue (fetch s).toInt = .error e) : stepAccesses s = [.read s.pc] := by
  simp only [stepAccesses, hrun, h]

theorem stepEffect_with_mem (hrun : s.status = .running) (h : AgreesOn s m (stepAccesses s)) :
    stepEffect { s with mem := m } = stepEffect s := by
  cases hdecode : decodeValue (fetch s).toInt with
  | error e =>
    rw [stepAccesses_of_refused hrun hdecode] at h
    have hfetch : fetch { s with mem := m } = fetch s := h.memRead
    rw [stepEffect_of_refused hdecode, stepEffect_of_refused (hfetch ▸ hdecode)]
    rfl
  | ok i =>
    rw [stepAccesses_of_decode hrun hdecode] at h
    obtain ⟨hpc, hinstr⟩ := AgreesOn.of_append (l := [.read s.pc]) h
    have hfetch : fetch { s with mem := m } = fetch s := hpc.memRead
    rw [stepEffect_of_decode hdecode, stepEffect_of_decode (hfetch ▸ hdecode), instrEffect_with_mem hinstr]

/-! ### The reads come before the writes -/

/-- The addresses that a step with this effect writes. -/
def writtenBy : Except (Cause.Of W) (Effect W) → List (Addr W)
  | .ok e => e.target.toList
  | .error _ => []

/-- The accesses are reads, `n` of them where there is an effect, followed by the writes of that effect. -/
def ReadsThenWrites (l : List (Access.Of W)) (x : Except (Cause.Of W) (Effect W)) (n : Nat) : Prop :=
  ∃ reads : List (Addr W), l = reads.map .read ++ (writtenBy x).map .write ∧ ∀ e, x = .ok e → reads.length = n

namespace ReadsThenWrites

variable {α : Type} {x : Except (Cause.Of W) α} {f : α → Except (Cause.Of W) (Effect W)}
  {rest : α → List (Access.Of W)} {n k : Nat}

/-- The end of an instruction: it has read all it reads, and makes the write that its effect has. -/
theorem ok {e : Effect W} {l : List (Access.Of W)} (h : l = e.target.toList.map .write) :
    ReadsThenWrites l (.ok e) 0 := ⟨[], h, fun _ _ => rfl⟩

/-- A stage that reads, then what follows it. -/
theorem bind {l : List (Access.Of W)}
    (hl : ∃ reads : List (Addr W), l = reads.map .read ∧ ∀ a, x = .ok a → reads.length = n)
    (hf : ∀ a, ReadsThenWrites (rest a) (f a) k) : ReadsThenWrites (l ++ afterOk x rest) (x >>= f) (n + k) := by
  obtain ⟨reads, rfl, hn⟩ := hl
  cases x with
  | error c => exact ⟨reads, rfl, nofun⟩
  | ok a =>
    obtain ⟨more, hmore, hk⟩ := hf a
    refine ⟨reads ++ more, ?_, fun e he => ?_⟩
    · rw [afterOk_ok, hmore, ok_bind, List.map_append, List.append_assoc]
    · rw [List.length_append, hn a rfl, hk e he]

/-- A stage without accesses, then what follows it. -/
theorem bind_silent (hf : ∀ a, ReadsThenWrites (rest a) (f a) k) : ReadsThenWrites (afterOk x rest) (x >>= f) k := by
  have h := bind (x := x) (l := []) (n := 0) ⟨[], rfl, fun _ _ => rfl⟩ hf
  rwa [List.nil_append, Nat.zero_add] at h

theorem afterOk_nil (x : Except (Cause.Of W) α) : afterOk x (fun _ => ([] : List (Access.Of W))) = [] := by
  cases x <;> rfl

/-- Stages without accesses that end in an effect without a write. -/
theorem bind_silent_nil (hf : ∀ a, ReadsThenWrites [] (f a) 0) : ReadsThenWrites [] (x >>= f) 0 := by
  have h := bind_silent (x := x) hf
  rwa [afterOk_nil] at h

/-- A stage that reads, with no access behind it. -/
theorem bind_last {l : List (Access.Of W)}
    (hl : ∃ reads : List (Addr W), l = reads.map .read ∧ ∀ a, x = .ok a → reads.length = n)
    (hf : ∀ a, ReadsThenWrites [] (f a) 0) : ReadsThenWrites l (x >>= f) n := by
  have h := bind hl hf
  rwa [afterOk_nil, List.append_nil, Nat.add_zero] at h

end ReadsThenWrites

/-- How many accesses a read parameter of this mode makes (R66). -/
def readsOf (pm : Mode) : Nat := 1 + if pm = .immediate then 0 else 1

theorem aluAccesses_readsThenWrites (op : AluOp) (ma mb md : Mode) (s : State.Of W) :
    ReadsThenWrites (aluAccesses op ma mb md s) (aluEffect op ma mb md s) (readsOf ma + (readsOf mb + (1 + 0))) :=
  .bind (rdAccesses_reads s 1 ma) fun _ => .bind (rdAccesses_reads s 2 mb) fun _ => .bind (wrAccesses_reads s 3 md)
    fun _ => .bind_silent fun _ => .bind_silent fun _ => .ok rfl

theorem inAccesses_readsThenWrites (md : Mode) (s : State.Of W) :
    ReadsThenWrites (inAccesses md s) (inEffect md s) (1 + 0) :=
  .bind (wrAccesses_reads s 1 md) fun _ => .bind_silent fun _ => .bind_silent fun _ => .ok rfl

theorem jumpAccesses_readsThenWrites (taken : Bool) (ma mb : Mode) (s : State.Of W) :
    ReadsThenWrites (jumpAccesses ma mb s) (jumpEffect taken ma mb s) (readsOf ma + readsOf mb) :=
  .bind (rdAccesses_reads s 1 ma) fun _ => .bind_last (rdAccesses_reads s 2 mb) fun _ => .bind_silent_nil
    fun _ => .ok rfl

/-- An instruction reads its parameters, a word for each operand behind an address, and then writes (R66). -/
theorem instrAccesses_readsThenWrites (i : Instr) (s : State.Of W) :
    ReadsThenWrites (instrAccesses i s) (instrEffect i s) (i.paramCount + operandReads i) := by
  have hcount3 : ∀ a b : Mode, 3 + ((if a = .immediate then 0 else 1) + (if b = .immediate then 0 else 1)) =
      readsOf a + (readsOf b + (1 + 0)) := fun a b => by simp only [readsOf]; omega
  have hcount2 : ∀ a b : Mode, 2 + ((if a = .immediate then 0 else 1) + (if b = .immediate then 0 else 1)) =
      readsOf a + readsOf b := fun a b => by simp only [readsOf]; omega
  cases i with
  | add a b d | mul a b d | lt a b d | eq a b d =>
    exact (hcount3 a b).symm ▸ aluAccesses_readsThenWrites _ a b d s
  | jt a b | jf a b => exact (hcount2 a b).symm ▸ jumpAccesses_readsThenWrites _ a b s
  | inp d => exact inAccesses_readsThenWrites d s
  | out a => exact .bind_last (rdAccesses_reads s 1 a) fun _ => .bind_silent_nil fun _ => .ok rfl
  | arb a =>
    exact .bind_last (rdAccesses_reads s 1 a) fun _ => .bind_silent_nil fun _ => .bind_silent_nil fun _ => .ok rfl
  | halt => exact ⟨[0], rfl, fun _ _ => rfl⟩

/-- A step reads the instruction word first, and writes last (R66). -/
theorem exists_reads_stepAccesses (hrun : s.status = .running) :
    ∃ reads : List (Addr W), stepAccesses s = (s.pc :: reads).map .read ++ (writtenBy (stepEffect s)).map .write ∧
      ∀ i e, decodeValue (fetch s).toInt = .ok i → stepEffect s = .ok e →
        reads.length = i.paramCount + operandReads i := by
  cases hdecode : decodeValue (fetch s).toInt with
  | error c =>
    rw [stepAccesses_of_refused hrun hdecode, stepEffect_of_refused hdecode]
    exact ⟨[], rfl, nofun⟩
  | ok i =>
    rw [stepAccesses_of_decode hrun hdecode, stepEffect_of_decode hdecode]
    obtain ⟨reads, hl, hn⟩ := instrAccesses_readsThenWrites i s
    refine ⟨reads, congrArg _ hl, fun j e hj he => ?_⟩
    obtain rfl := Except.ok.inj hj
    exact hn e he

/-- An effect writes as many words as the table gives for its instruction (R66). -/
theorem target_length_eq_wordsWritten {i : Instr} {e : Effect W} (h : e.From i s) :
    e.target.toList.length = wordsWritten i := by
  cases e with
  | halt =>
    obtain ⟨rfl, -⟩ := h
    rfl
  | jump => cases h <;> rfl
  | output | rebase =>
    obtain ⟨m, rfl⟩ := h
    rfl
  | store =>
    obtain ⟨m, hm, -⟩ := h
    cases hm <;> rfl
  | input =>
    obtain ⟨m, rfl, -⟩ := h
    rfl

end

/-- Settles O43: the accesses are the reads and then the writes of the effect, which a faulting step has not. -/
theorem accessesFollowTheTable : Obligations.AccessesFollowTheTable := by
  intro s t h
  obtain ⟨hrun, rfl⟩ := step_eq_next_iff.1 h
  obtain ⟨reads, hsplit, hreads⟩ := exists_reads_stepAccesses hrun
  refine ⟨s.pc :: reads, writtenBy (stepEffect s), hsplit, rfl, fun hf => ?faulted, fun i hi hok => ?completed⟩
  case faulted =>
    obtain ⟨c, hc⟩ := (outcomeOf_status_eq_faulted_iff hrun).1 hf
    rw [hc]
    rfl
  case completed =>
    cases he : stepEffect s with
    | error c => exact absurd ((outcomeOf_status_eq_faulted_iff hrun).2 ⟨c, he⟩) hok
    | ok e =>
      have hfrom : e.From i s := instrEffect_eq_ok (stepEffect_of_runs hi ▸ he)
      refine ⟨?_, target_length_eq_wordsWritten hfrom⟩
      rw [List.length_cons, hreads i e hi.2 he]
      omega

/-! ### The words that a step writes -/

section

variable {W : Nat} {s : State.Of W} {e : Effect W} {a : Addr W}

/-- The word that an effect writes is the same in every state. -/
theorem read_apply_of_target (s' : State.Of W) (h : e.target = some a) :
    Memory.read (e.apply s').mem a.val = Memory.read (e.apply s).mem a.val := by
  cases e with
  | store d v n | input d v n =>
    obtain rfl := Option.some.inj h
    exact (Memory.read_write_self s'.mem d.val v).trans (Memory.read_write_self s.mem d.val v).symm
  | halt | jump | output | rebase => cases h

/-- Every other word is kept. -/
theorem read_apply_of_not_target (h : e.target ≠ some a) :
    Memory.read (e.apply s).mem a.val = Memory.read s.mem a.val := by
  cases e with
  | store d v n | input d v n =>
    have hne : a.val ≠ d.val := fun had => h (congrArg some (Fin.ext had.symm))
    exact Memory.read_write_ne s.mem v hne
  | halt | jump | output | rebase => rfl

theorem outcomeOf_with_mem (s : State.Of W) (m : Memory W) (x : Except (Cause.Of W) (Effect W)) :
    outcomeOf { s with mem := m } x = { outcomeOf s x with mem := (outcomeOf { s with mem := m } x).mem } := by
  cases x with
  | error c => rfl
  | ok e => cases e <;> rfl

theorem write_mem_stepAccesses_iff (hrun : s.status = .running) :
    Access.Of.write a ∈ stepAccesses s ↔ a ∈ writtenBy (stepEffect s) := by
  obtain ⟨reads, hsplit, -⟩ := exists_reads_stepAccesses hrun
  simp [hsplit]

end

/-- Settles O42: the effect is read from the words that agree; applied to either memory it writes the same word and
keeps the others. -/
theorem stepDependsOnlyOnTheWordsItReads : Obligations.StepDependsOnlyOnTheWordsItReads := by
  intro s m hrun hagree
  have heffect : stepEffect { s with mem := m } = stepEffect s := stepEffect_with_mem hrun hagree
  refine ⟨_, _, step_of_running hrun, step_of_same_effect hrun heffect, outcomeOf_with_mem s m _,
    fun a ha => ?written, fun a ha => ?kept⟩
  case written =>
    rw [write_mem_stepAccesses_iff hrun] at ha
    cases he : stepEffect s with
    | error c =>
      rw [he] at ha
      cases ha
    | ok e =>
      rw [he] at ha
      exact read_apply_of_target _ (Option.mem_toList.1 ha)
  case kept =>
    rw [write_mem_stepAccesses_iff hrun] at ha
    cases he : stepEffect s with
    | error c => rfl
    | ok e =>
      rw [he] at ha
      exact read_apply_of_not_target fun htarget => ha (Option.mem_toList.2 htarget)

end Sys2Proof.Claims

/-! SUPPORT. One machine at two word widths (R4; the spec's decision D1): where the narrower one does not overflow the
wider one takes the same step, and so the same run. -/

namespace Sys2Proof.Claims

open Sys2Proof.Machine

/-! ### Instructions -/

/-- What the narrower machine answers without an overflow, the wider one answers in the same values. -/
def SameOutcome {V W : Nat} (x : Host.Outcome (State.Of V) Fault Refusal)
    (y : Host.Outcome (State.Of W) Fault Refusal) : Prop :=
  ∀ u, x = .next u → NoOverflow u → ∃ v, y = .next v ∧ SameValues u v

section

variable {V W : Nat} {s : State.Of V} {t : State.Of W}

theorem SameOutcome.of_lifts (hs : SameValues s t) {x : Except (Cause.Of V) (State.Of V)}
    {y : Except (Cause.Of W) (State.Of W)} (h : Lifts SameValues x y) : SameOutcome (commit s x) (commit t y) :=
  fun _ => hs.commit h

variable (hVW : V ≤ W) (hs : SameValues s t)
include hVW hs

theorem lifts_fallThrough (n : Nat) : Lifts SameValues (fallThrough s n) (fallThrough t n) :=
  (lifts_chkPc hVW hs n).bind fun _ _ hp => .ok (hs.setPc hp)

omit hVW in
theorem lifts_jumpTo {a : Word V} {b : Word W} (h : SameWord a b) : Lifts SameValues (jumpTo s a) (jumpTo t b) :=
  (lifts_addrOf h).bind fun _ _ hp => .ok (hs.setPc hp)

omit hVW hs in
theorem wordIsTrue_eq_of_sameWord {a : Word V} {b : Word W} (h : SameWord a b) : wordIsTrue b = wordIsTrue a := by
  rw [wordIsTrue, h, wordIsTrue]

variable [NeZero V] [NeZero W]

theorem sameOutcome_aluInstr (op : AluOp) (ma mb md : Mode) :
    SameOutcome (aluInstr op ma mb md s) (aluInstr op ma mb md t) :=
  .of_lifts hs
    ((lifts_rd hVW hs 1 ma).bind fun _ _ ha => (lifts_rd hVW hs 2 mb).bind fun _ _ hb =>
      (lifts_wr hVW hs 3 md).bind fun _ _ hd => (lifts_chk hVW (by rw [ha, hb])).bind fun _ _ hr =>
      (lifts_chkPc hVW hs 4).bind fun _ _ hp => .ok ((hs.memWrite hd hr).setPc hp))

theorem sameOutcome_execIn (md : Mode) : SameOutcome (execIn md s) (execIn md t) :=
  .of_lifts hs
    ((lifts_wr hVW hs 1 md).bind fun _ _ hd => (lifts_nextInput hs).bind fun _ _ hv =>
      (lifts_chkPc hVW hs 2).bind fun _ _ hp => .ok ((hs.memWrite hd hv).consumeInput.setPc hp))

theorem sameOutcome_execOut (ma : Mode) : SameOutcome (execOut ma s) (execOut ma t) :=
  .of_lifts hs
    ((lifts_rd hVW hs 1 ma).bind fun _ _ ha => (lifts_chkPc hVW hs 2).bind fun _ _ hp => .ok ((hs.pushOut ha).setPc hp))

theorem sameOutcome_execArb (ma : Mode) : SameOutcome (execArb ma s) (execArb ma t) :=
  .of_lifts hs
    ((lifts_rd hVW hs 1 ma).bind fun _ _ ha => (lifts_chk hVW (by rw [ha, hs.rb])).bind fun _ _ hv =>
      (lifts_chkPc hVW hs 2).bind fun _ _ hp => .ok ((hs.setRb hv).setPc hp))

theorem sameOutcome_execJt (ma mb : Mode) : SameOutcome (execJt ma mb s) (execJt ma mb t) :=
  .of_lifts hs
    ((lifts_rd hVW hs 1 ma).bind fun _ _ ha => (lifts_rd hVW hs 2 mb).bind fun _ _ hb => by
      rw [wordIsTrue_eq_of_sameWord ha]
      split
      · exact lifts_jumpTo hs hb
      · exact lifts_fallThrough hVW hs 3)

theorem sameOutcome_execJf (ma mb : Mode) : SameOutcome (execJf ma mb s) (execJf ma mb t) :=
  .of_lifts hs
    ((lifts_rd hVW hs 1 ma).bind fun _ _ ha => (lifts_rd hVW hs 2 mb).bind fun _ _ hb => by
      rw [wordIsTrue_eq_of_sameWord ha]
      split
      · exact lifts_fallThrough hVW hs 3
      · exact lifts_jumpTo hs hb)

theorem sameOutcome_execAt (i : Instr) : SameOutcome (execAt i s) (execAt i t) := by
  cases i with
  | add | mul | lt | eq => exact sameOutcome_aluInstr hVW hs _ _ _ _
  | inp => exact sameOutcome_execIn hVW hs _
  | out => exact sameOutcome_execOut hVW hs _
  | arb => exact sameOutcome_execArb hVW hs _
  | jt => exact sameOutcome_execJt hVW hs _ _
  | jf => exact sameOutcome_execJf hVW hs _ _
  | halt =>
    intro u hu _
    obtain rfl : s.halt = u := Host.Outcome.next.inj hu
    exact ⟨t.halt, rfl, hs.halt⟩

/-! ### Steps and runs -/

omit hVW [NeZero V] [NeZero W] in
/-- Both machines fetch a word of the same value, which decodes the same. -/
theorem toInt_fetch_eq : (fetch t).toInt = (fetch s).toInt := hs.memRead hs.pc

theorem sameOutcome_stepAt : SameOutcome (stepAt s) (stepAt t) := by
  rintro u hu hn
  obtain ⟨hrun, ⟨i, hdecode, hexec⟩ | ⟨op, hdecode, rfl⟩⟩ := stepWith_cases hu
  · obtain ⟨v, hv, hsame⟩ := sameOutcome_execAt hVW hs i u hexec hn
    refine ⟨v, ?_, hsame⟩
    rw [← hv, stepAt, stepWith, hs.status, hrun, toInt_fetch_eq hs, fetch, hdecode]
  · refine ⟨t.raise (.unknownOpcode op t.pc), ?_, hs.raise (by simp only [Cause.Of.record, hs.pc])⟩
    rw [stepAt, stepWith, hs.status, hrun, toInt_fetch_eq hs, fetch, hdecode]
    rfl

end

theorem neZero_of_le {W : Nat} (h : 64 ≤ W) : NeZero W := ⟨by omega⟩

/-- Settles O47: the instruction is the same one, and each of its stages answers the same value. -/
theorem widerWordsTakeTheSameStep : Obligations.WiderWordsTakeTheSameStep := by
  intro V W s t s' hV hVW hs hstep hn
  have := neZero_of_le hV
  have := neZero_of_le (hV.trans hVW)
  exact sameOutcome_stepAt hVW hs t hstep hn

section

variable {V W : Nat} {s : State.Of V} {t : State.Of W}

/-- An overflow that a run has recorded stays recorded: it has ended the run. -/
theorem noOverflow_of_runAt (hinv : s.Inv) {n : Nat} (h : NoOverflow (runAt n s)) : NoOverflow s := by
  by_cases hf : s.status = .faulted
  · have hstay : runAt n s = s := runAt_of_not_running (by rw [hf]; decide) n
    exact hstay ▸ h
  · rw [NoOverflow, faultRecord_of_eq_none (fault_eq_none_of_inv hinv hf)]
    decide

/-- A run that does not overflow is the same run at the greater width (D1). -/
theorem sameValues_runAt [NeZero V] [NeZero W] (hVW : V ≤ W) (hinv : s.Inv) (hs : SameValues s t) {n : Nat}
    (hn : NoOverflow (runAt n s)) : SameValues (runAt n s) (runAt n t) := by
  induction n generalizing s t with
  | zero => exact hs
  | succ n ih =>
    by_cases hrun : s.status = .running
    · obtain ⟨u, hu⟩ : ∃ u, stepAt s = .next u := ⟨_, stepAt_of_running hrun⟩
      have hs_succ : runAt (n + 1) s = runAt n u := runWith_of_next hu
      rw [hs_succ] at hn ⊢
      have hinv' : u.Inv := inv_of_stepAt hinv hu
      obtain ⟨v, hv, hsame⟩ := sameOutcome_stepAt hVW hs u hu (noOverflow_of_runAt hinv' hn)
      have ht_succ : runAt (n + 1) t = runAt n v := runWith_of_next hv
      rw [ht_succ]
      exact ih hinv' hsame hn
    · rw [runAt_of_not_running hrun, runAt_of_not_running (hs.status ▸ hrun)]
      exact hs

/-- `wordAt_boot` at every width: the image from address 0 upwards, and 0 behind it (R36, R53). -/
theorem toInt_read_boot [NeZero W] {image : List Int} (h : ∀ v ∈ image, InIntW v W) (input : List (Word W)) (a : Nat) :
    (Memory.read (State.Of.boot (image.map Word.ofInt) input).mem a).toInt = image[a]?.getD 0 := by
  have hread := Memory.read_ofImage (image.map (Word.ofInt (W := W))) 0 a
  rw [Nat.zero_add, List.getElem?_map] at hread
  rw [State.Of.boot_mem, hread]
  cases hv : image[a]? with
  | none => exact BitVec.toInt_zero
  | some v => exact toInt_ofInt (h v (List.mem_of_getElem? hv))

/-- The values that a narrower machine takes as words are the same words' values at a wider one. -/
theorem sameValues_boot [NeZero V] [NeZero W] (hVW : V ≤ W) {image input : List Int} (himage : ∀ v ∈ image, InIntW v V)
    (hinput : ∀ v ∈ input, InIntW v V) :
    SameValues (State.Of.boot (image.map Word.ofInt) (input.map Word.ofInt) : State.Of V)
      (State.Of.boot (image.map Word.ofInt) (input.map Word.ofInt) : State.Of W) where
  mem a := by
    rw [toInt_read_boot himage, toInt_read_boot fun v hv => inIntW_mono hVW (himage v hv)]
  extent := by simp only [State.Of.boot_extent, List.length_map]
  pc := rfl
  rb := BitVec.toInt_zero.trans BitVec.toInt_zero.symm
  status := rfl
  fault := rfl
  input := by
    rw [State.Of.boot_input, State.Of.boot_input, map_toInt_map_ofInt hinput,
      map_toInt_map_ofInt fun v hv => inIntW_mono hVW (hinput v hv)]
  inCursor := rfl
  out := rfl
  retval := BitVec.toInt_zero.trans BitVec.toInt_zero.symm

end

/-- Settles O48: the wider machine accepts the launch with the same values, and runs on from there in step. -/
theorem everyWidthGivesTheSameRun : Obligations.EveryWidthGivesTheSameRun := by
  intro W image input s n hW hlaunch hn
  have := neZero_of_le hW
  have hinv := inv_of_launchAt_eq_next hlaunch
  obtain ⟨hvalues, hlen, rfl⟩ := launchAt_eq_next_iff.1 hlaunch
  obtain ⟨himage, hinput⟩ := List.forall_mem_append.1 hvalues
  have hwider : ∀ v ∈ image ++ input, InIntW v W := fun v hv => inIntW_mono hW (hvalues v hv)
  have hfits : image.length ≤ Config.AMAX W + 1 := hlen.trans (Nat.succ_le_succ (amax_mono hW))
  refine ⟨_, launchAt_eq_next_iff.2 ⟨hwider, hfits, rfl⟩, ?same⟩
  rw [runFor_eq_runAt] at hn ⊢
  exact sameValues_runAt hW hinv (sameValues_boot hW himage hinput) hn

end Sys2Proof.Claims
